-- ==== Sys2Proof/Word.lean ====
section
/-! DEFINITION. The bit-vector widths of the FCU (00_scope.md R8). -/

namespace Sys2Proof

/-- A register of the register port and a buffer-port address: 32 bits (R8). -/
abbrev Word := BitVec 32

/-- The CRC register and the cmd, len and crc fields of a frame: 16 bits (R8). -/
abbrev Half := BitVec 16

/-- A byte of the frame buffer and the version, type and seq fields: 8 bits (R8). -/
abbrev Byte := BitVec 8

/-- A register-port index: 6 bits, 0x00 to 0x3F (R21). -/
abbrev RegIndex := BitVec 6

end Sys2Proof
end

