-- ==== Sys2Proof/Config.lean ====
section
/-! DEFINITION. What an implementation fixes (R7), what the spec leaves open (R199), and the
protocol constants the source fixes (R9). -/

namespace Sys2Proof

/-- The implementation parameters. `FB_CAP` is the only one (R7); `HOST_MAP` (R65) is read by no rule
and is left out (assumption 6). -/
structure Config where
  /-- FB_CAP, the capacity of the frame buffer in bytes (R7, R33). -/
  fbCap : Word
deriving DecidableEq, Repr

/-- The default parameter value, 65546 = 9 + 65535 + 2 (R7). -/
def Config.default : Config := { fbCap := 65546#32 }

/-- The FREE VALUE of the model: the byte that the k-th read of a frame-buffer byte not written since
reset draws (R199: "draws a fresh byte for each such read"). No body, so no proof can know it
(assumption 1). -/
opaque Config.freeByte : Nat → Byte

/-- Sync byte 1 (R9). -/
def sync1 : Byte := 0xAA#8
/-- Sync byte 2 (R9). -/
def sync2 : Byte := 0x55#8
/-- Size of the frame header: sync1 to len (R9, R14). -/
def headerSize : Nat := 9
/-- Size of the trailing checksum (R9). -/
def checksumSize : Nat := 2
/-- The smallest frame, and the length below which a view is TooShort (R9, R140). -/
def minFrame : Nat := 11
/-- The initial value of the CRC register (R9, R100). -/
def crcInitial : Half := 0xFFFF#16
/-- The reflected CRC polynomial (R9, R101). -/
def crcPoly : Half := 0xA001#16
/-- The protocol version a valid frame carries; the parser never compares it (R9, R146). -/
def protocolVersion : Byte := 0x10#8

end Sys2Proof
end

