-- ==== Sys2Proof/Syntax.lean ====
section
/-! DEFINITION. The commands of the FCU, one constructor per row of spec/opcode_table.json (R72).
A command word has no operand field (R71), so no constructor has an argument; operands come from
registers when the command starts (R75). -/

namespace Sys2Proof

inductive Instr where
  /-- NOP, 0x00000000 (R149). -/
  | nop
  /-- CRC_INIT, 0x00000001 (R102). -/
  | crcInit
  /-- CRC_BYTE, 0x00000002 (R103). -/
  | crcByte
  /-- CRC_BUF, 0x00000003 (R105). -/
  | crcBuf
  /-- CRC_ACC, 0x00000004 (R106). -/
  | crcAcc
  /-- LD_U16, 0x00000010 (R121). -/
  | ldU16
  /-- LD_I16, 0x00000011 (R122). -/
  | ldI16
  /-- LD_F32, 0x00000012 (R123). -/
  | ldF32
  /-- ST_U16, 0x00000018 (R124). -/
  | stU16
  /-- ST_I16, 0x00000019 (R125). -/
  | stI16
  /-- ST_F32, 0x0000001A (R126). -/
  | stF32
  /-- DECODE, 0x00000020 (R141). -/
  | decodeFrame
deriving DecidableEq, Repr

end Sys2Proof
end

