-- ==== Sys2Proof/WellFormed.lean ====
section
/-! DEFINITION. Well-formedness of the terms the machine is given: the configuration and the
commands. -/

namespace Sys2Proof

/-- R7: 11 <= FB_CAP <= 2^32 - 1; the upper bound is the width of the field. -/
def Config.wellFormed (c : Config) : Bool := decide (minFrame ≤ c.fbCap.toNat)

/-- R71: "No bit of the command word is an operand, a register number, an immediate or a mode bit", so a
command has no field that could be out of range and every one of the twelve is well formed. -/
def Instr.wellFormed : Instr → Bool
  | .nop => true
  | .crcInit => true
  | .crcByte => true
  | .crcBuf => true
  | .crcAcc => true
  | .ldU16 => true
  | .ldI16 => true
  | .ldF32 => true
  | .stU16 => true
  | .stI16 => true
  | .stF32 => true
  | .decodeFrame => true

end Sys2Proof
end

