-- ==== Sys2Proof/Decode.lean ====
section
/-! DEFINITION. Decoding and encoding of command words (R70 to R73). -/

namespace Sys2Proof

/-- Why a value written to CMD is no command. -/
inductive DecodeError where
  /-- R73: the value is none of the twelve opcodes; the machine raises Fault(ILLEGAL_OP) and goes on. -/
  | illegalOp (v : Word)
deriving DecidableEq, Repr

/-- The opcode map of R72, row by row. -/
def opcodeMap : List (Word × Instr) :=
  [ (0x00000000#32, .nop),
    (0x00000001#32, .crcInit),
    (0x00000002#32, .crcByte),
    (0x00000003#32, .crcBuf),
    (0x00000004#32, .crcAcc),
    (0x00000010#32, .ldU16),
    (0x00000011#32, .ldI16),
    (0x00000012#32, .ldF32),
    (0x00000018#32, .stU16),
    (0x00000019#32, .stI16),
    (0x0000001A#32, .stF32),
    (0x00000020#32, .decodeFrame) ]

/-- R71: bits [31:0] are the opcode, "compared as a whole with the values of rule R72"; any other value
is illegal (R73). -/
def decode (v : Word) : Except DecodeError Instr :=
  match opcodeMap.lookup v with
  | some i => .ok i
  | none => .error (.illegalOp v)

/-- The word a host writes to CMD to issue a command (R72). -/
def encode : Instr → Word
  | .nop => 0x00000000#32
  | .crcInit => 0x00000001#32
  | .crcByte => 0x00000002#32
  | .crcBuf => 0x00000003#32
  | .crcAcc => 0x00000004#32
  | .ldU16 => 0x00000010#32
  | .ldI16 => 0x00000011#32
  | .ldF32 => 0x00000012#32
  | .stU16 => 0x00000018#32
  | .stI16 => 0x00000019#32
  | .stF32 => 0x0000001A#32
  | .decodeFrame => 0x00000020#32

/-- The command that the decoder reads from a row of the opcode table whose `nbits` bits are `w`. A value
that does not fit the 32-bit command word is no command word (R71). -/
def decodeTableWord (nbits w : Nat) : Option Instr :=
  if w % 2 ^ nbits < 2 ^ 32 then (decode (BitVec.ofNat 32 (w % 2 ^ nbits))).toOption else none

end Sys2Proof
end

