-- ==== Sys2Proof/Machine/State.lean ====
section
/-! DEFINITION. The state of the machine (R20, R22, R39), the host's accesses (R21, R51, R52, R191), the
reasons a step can stop, and the state after reset (R190). -/

namespace Sys2Proof.Machine

/-- STATUS.RESULT: the outcome of the last DECODE (R25). Codes 4 to 15 are never produced. -/
inductive ResultCode where
  | ok
  | tooShort
  | badSync
  | incomplete
deriving DecidableEq, Repr

/-- The causes that `raise Fault(cause)` records in STATUS.FCAUSE (R171). Codes 3 to 15 are never
produced. -/
inductive FaultCause where
  | illegalOp
  | range
deriving DecidableEq, Repr

/-- The 17 named registers of the register map (R22). -/
inductive RegName where
  | cmd | status | a0 | a1 | crc | cw | fbLen | fbCap
  | fVer | fType | fSeq | fCmd | fLen | fPoff | fCrc | fCons | fFlags
deriving DecidableEq, Repr

/-- One host access (R20, R21, R51, R52, R191; kinds and operands as in R82). -/
inductive Access where
  /-- `REG_WR r, v` (R21). -/
  | regWr (r : RegIndex) (v : Word)
  /-- `REG_RD r` (R21). -/
  | regRd (r : RegIndex)
  /-- `BUF_WR a, b` (R51). -/
  | bufWr (a : Word) (b : Byte)
  /-- `BUF_RD a` (R52). -/
  | bufRd (a : Word)
  /-- The reset input (R191). -/
  | reset
deriving DecidableEq, Repr

/-- What a read access gives the host. -/
inductive Reply where
  /-- The 32-bit value of a `REG_RD` (R21). -/
  | regData (v : Word)
  /-- The byte of a `BUF_RD` (R52). -/
  | bufData (b : Byte)
deriving DecidableEq, Repr

/-- Bytes by address, in the canonical form of `Memory.wf`. An address that is not listed has not been
written since reset and has no value of its own (R54, R199; assumption 1). -/
abbrev Memory := List Host.Cell

/-- Reasons the machine stops with a fault: NONE. The FCU's own faults are sticky bits in STATUS, after
which "the FCU goes on accepting accesses and performing commands normally" (R170, R177). The type is
closed and empty, so that no claim can be true because the machine stopped (safe). -/
inductive Fault
deriving DecidableEq, Repr

/-- Reasons for which a step has no meaning. -/
inductive Refusal where
  /-- Raised by no arm of `exec`: every command of the table has its meaning. The constructor is part of
  the host's interface (safe: it would stop the run). -/
  | notModelled (mnemonic : String)
deriving DecidableEq, Repr

/-- The whole state. The first group is the record of R39; the second is the model's own. -/
structure State where
  /-- CMD (R24). -/
  cmd : Word
  /-- STATUS.RESULT (R27). -/
  result : ResultCode
  /-- STATUS.VALID (R26). -/
  valid : Bool
  /-- STATUS.FAULT (R28). -/
  fault : Bool
  /-- STATUS.FCAUSE (R28); `none` is code 0. -/
  fcause : Option FaultCause
  /-- A0 (R29). -/
  a0 : Word
  /-- A1 (R29). -/
  a1 : Word
  /-- CRC (R30). -/
  crc : Half
  /-- CW (R31). -/
  cw : Word
  /-- FB_LEN (R32). -/
  fbLen : Word
  /-- F_VER (R34). -/
  fVer : Byte
  /-- F_TYPE (R34). -/
  fType : Byte
  /-- F_SEQ (R34). -/
  fSeq : Byte
  /-- F_CMD (R35). -/
  fCmd : Half
  /-- F_LEN (R35). -/
  fLen : Half
  /-- F_POFF (R35). -/
  fPoff : Word
  /-- F_CRC (R35). -/
  fCrc : Half
  /-- F_CONS (R35). -/
  fCons : Word
  /-- F_FLAGS.PT (R36). -/
  fPt : Bool
  /-- FB, the bytes written since reset (R50, R54, R38). -/
  fb : Memory
  /-- The configuration, constant (R7, R20, R33): no access writes it (assumption 3). -/
  config : Config
  /-- THE MODEL'S OWN: how many free bytes have been drawn (R199; assumption 1). -/
  draws : Nat
  /-- THE MODEL'S OWN: the accesses the host has still to perform, in issue order (R60; assumption 2). -/
  pending : List Access
  /-- THE MODEL'S OWN: what the host's reads returned, in issue order (R60; assumption 2). -/
  replies : List Reply
deriving DecidableEq, Repr

/-- The state after reset of an FCU built with configuration `c` (R190, R22). -/
def State.resetWith (c : Config) : State where
  cmd := 0#32
  result := .ok
  valid := false
  fault := false
  fcause := none
  a0 := 0#32
  a1 := 0#32
  crc := crcInitial
  cw := 0#32
  fbLen := 0#32
  fVer := 0#8
  fType := 0#8
  fSeq := 0#8
  fCmd := 0#16
  fLen := 0#16
  fPoff := 0#32
  fCrc := 0#16
  fCons := 0#32
  fPt := false
  fb := []
  config := c
  draws := 0
  pending := []
  replies := []

/-- The machine right after power-on reset, with the default configuration (R190, R191, R7). -/
def State.reset : State := State.resetWith Config.default

end Sys2Proof.Machine
end

