-- ==== Sys2Proof/Machine/Flags.lean ====
section
/-! DEFINITION. The fields of STATUS and F_FLAGS: their codes, the words that read them, and the updates
that write them. -/

namespace Sys2Proof.Machine

/-- R25, D19: 0 Ok, 1 TooShort, 2 BadSync, 3 Incomplete. -/
def ResultCode.code : ResultCode → BitVec 4
  | .ok => 0#4
  | .tooShort => 1#4
  | .badSync => 2#4
  | .incomplete => 3#4

/-- R171: 1 ILLEGAL_OP, 2 RANGE. -/
def FaultCause.code : FaultCause → BitVec 4
  | .illegalOp => 1#4
  | .range => 2#4

/-- STATUS.FCAUSE as it reads (R25): 0 is none. -/
def fcauseCode : Option FaultCause → BitVec 4
  | none => 0#4
  | some c => c.code

/-- A Boolean field in bit 0 of a register word. -/
def bitWord (b : Bool) : Word := if b then 1#32 else 0#32

/-- STATUS as it reads (R25, R39). -/
def statusWord (s : State) : Word :=
  s.result.code.setWidth 32 ||| (bitWord s.valid <<< 4) ||| (bitWord s.fault <<< 8)
    ||| ((fcauseCode s.fcause).setWidth 32 <<< 12)

/-- R148: `isPassthrough(t) = (0x80 <= t and t <= 0xEF)`. -/
def isPassthrough (t : Byte) : Bool := decide (0x80 ≤ t.toNat) && decide (t.toNat ≤ 0xEF)

/-- `reg[STATUS].VALID <- 0` (R26). -/
def clearValid (s : State) : State := { s with valid := false }

/-- R147: `group(cmd) = cmd[15:8]`. -/
def cmdGroup (c : Half) : Byte := c.extractLsb' 8 8

/-- R147: `id(cmd) = cmd[7:0]`. -/
def cmdId (c : Half) : Byte := c.extractLsb' 0 8

end Sys2Proof.Machine
end

