-- ==== Sys2Proof/Machine/Ops.lean ====
section
/-! DEFINITION. The shared operations over the frame buffer: reading and writing bytes, the big-endian
conversions, the range check, and raising a fault. -/

namespace Sys2Proof.Machine

/-! ### The frame buffer as data -/

/-- The byte written at `a` since reset, if any (R38, R54). -/
def Memory.read : Memory → Nat → Option Byte
  | [], _ => none
  | (k, b) :: m, a => if a = k then some b else Memory.read m a

/-- `FB[a] <- b`, keeping the addresses strictly rising. An unlisted address has no value, so a written
byte always stays listed. -/
def Memory.write : Memory → Nat → Byte → Memory
  | [], a, b => [(a, b)]
  | (k, x) :: m, a, b =>
    if a < k then (a, b) :: (k, x) :: m
    else if a = k then (a, b) :: m
    else (k, x) :: Memory.write m a b

/-- Writes the bytes `bs` at `a`, `a + 1`, … (R12 MemWrite). -/
def Memory.writeBytes : Memory → Nat → List Byte → Memory
  | m, _, [] => m
  | m, a, b :: bs => Memory.writeBytes (Memory.write m a b) (a + 1) bs

/-- The canonical form: addresses strictly rising. No byte equals what an unlisted address reads as, since
an unlisted address has no value. -/
abbrev Memory.wf (m : Memory) : Prop := m.Pairwise (fun x y => x.1 < y.1)

/-- Every written byte lies below the capacity (R50: addresses 0 to FB_CAP - 1). -/
abbrev Memory.below (m : Memory) (cap : Nat) : Prop := ∀ c ∈ m, c.1 < cap

/-! ### Reads, with a fresh free byte for a byte not written since reset (R199) -/

/-- One FB read: the byte, and the number of free bytes drawn after it. -/
def readByte (fb : Memory) (draws a : Nat) : Byte × Nat :=
  match fb.read a with
  | some b => (b, draws)
  | none => (Config.freeByte draws, draws + 1)

/-- `n` FB reads, "one at a time in increasing address order" (R58). -/
def readBytes (fb : Memory) : (draws a n : Nat) → List Byte × Nat
  | draws, _, 0 => ([], draws)
  | draws, a, n + 1 =>
    ((readByte fb draws a).1 :: (readBytes fb (readByte fb draws a).2 (a + 1) n).1,
      (readBytes fb (readByte fb draws a).2 (a + 1) n).2)

/-- The bytes a command reads at `a` (R12). -/
def fbBytes (s : State) (a n : Nat) : List Byte := (readBytes s.fb s.draws a n).1

/-- The draw counter after those reads. -/
def fbDraws (s : State) (a n : Nat) : Nat := (readBytes s.fb s.draws a n).2

/-! ### Big-endian conversions (R55, R120) -/

/-- R120: `toBytes16(v) = [v[15:8], v[7:0]]`. -/
def toBytes16 (v : Half) : List Byte := [v.extractLsb' 8 8, v.extractLsb' 0 8]

/-- R120: `toBytes32(v) = [v[31:24], v[23:16], v[15:8], v[7:0]]`. -/
def toBytes32 (v : Word) : List Byte :=
  [v.extractLsb' 24 8, v.extractLsb' 16 8, v.extractLsb' 8 8, v.extractLsb' 0 8]

/-- The value of a big-endian byte sequence of any length: each further byte is less significant
(R12 MemRead, R55). -/
def fromBytes : List Byte → Nat :=
  List.foldl (fun acc b => acc * 256 + b.toNat) 0

/-- R120: `fromBytes16([b0, b1]) = b0 || b1`. -/
def fromBytes16 (bs : List Byte) : Half := BitVec.ofNat 16 (fromBytes bs)

/-- R120: `fromBytes32([b0, b1, b2, b3]) = b0 || b1 || b2 || b3`. -/
def fromBytes32 (bs : List Byte) : Word := BitVec.ofNat 32 (fromBytes bs)

/-- `MemRead(a, 2)` (R12). -/
def memRead16 (s : State) (a : Nat) : Half := fromBytes16 (fbBytes s a 2)

/-- `MemRead(a, 4)` (R12). -/
def memRead32 (s : State) (a : Nat) : Word := fromBytes32 (fbBytes s a 4)

/-- `MemWrite(a, n, v)` for the bytes of v: the bytes go to `a` and up, then VALID is cleared (R12, R26,
R59). -/
def memWrite (s : State) (a : Nat) (bs : List Byte) : State :=
  clearValid { s with fb := s.fb.writeBytes a bs }

/-! ### Faults and the range check -/

/-- `raise Fault(cause)` (R170): FCAUSE keeps the first cause, FAULT is set, nothing else changes. It is
the whole of taking an exception: "No trap is taken, nothing is saved, control goes nowhere" (R170, R175).
There is no return from one (R176): only `hostReset` clears FAULT and FCAUSE. -/
def raiseFault (c : FaultCause) (s : State) : State :=
  { s with fcause := if s.fault then s.fcause else some c, fault := true }

/-- R104: `off + n <= reg[FB_LEN]` over unbounded natural numbers. -/
def rangeOK (s : State) (off n : Nat) : Bool := decide (off + n ≤ s.fbLen.toNat)

/-- The shape of every ranged command: `if not rangeOK(off, n) then raise Fault(RANGE)`, else go on (R104,
R173). -/
def guardRange (s : State) (off n : Nat) (done : State) : Host.Outcome State Fault Refusal :=
  .next (if rangeOK s off n then done else raiseFault .range s)

end Sys2Proof.Machine
end

