-- ==== Sys2Proof/Machine/Operands.lean ====
section
/-! DEFINITION. The operand forms: where each command takes its operands from (R29, R31, R75). -/

namespace Sys2Proof.Machine

/-- A0 as a buffer offset or DECODE base: "the full 32-bit unsigned value of its register" (R75). -/
def operandOffset (s : State) : Nat := s.a0.toNat

/-- A1 as a byte count (R29, R75). -/
def operandCount (s : State) : Nat := s.a1.toNat

/-- A0[7:0], the byte of CRC_BYTE; A0[31:8] is ignored (R29, R103). -/
def operandByte (s : State) : Byte := s.a0.extractLsb' 0 8

/-- CW[15:0], the value of the 16-bit stores; CW[31:16] is ignored (R31, R75). -/
def operandHalf (s : State) : Half := s.cw.extractLsb' 0 16

/-- CW, the value of ST_F32 (R31). -/
def operandWord (s : State) : Word := s.cw

end Sys2Proof.Machine
end

