-- ==== Sys2Proof/Machine/Codec.lean ====
section
/-! DEFINITION. The big-endian codec (41_codec.md): the six LD and ST commands. The float32 commands copy
bit patterns; there is no floating-point arithmetic (R120, R127). -/

namespace Sys2Proof.Machine

/-- LD_U16 (R121): `zext_32(MemRead(off, 2))`. -/
def execLdU16 (s : State) : Host.Outcome State Fault Refusal :=
  guardRange s (operandOffset s) 2
    { s with
      cw := (memRead16 s (operandOffset s)).setWidth 32
      draws := fbDraws s (operandOffset s) 2 }

/-- LD_I16 (R122): `sext_32(MemRead(off, 2))`. -/
def execLdI16 (s : State) : Host.Outcome State Fault Refusal :=
  guardRange s (operandOffset s) 2
    { s with
      cw := (memRead16 s (operandOffset s)).signExtend 32
      draws := fbDraws s (operandOffset s) 2 }

/-- LD_F32 (R123): `MemRead(off, 4)`, bit for bit. -/
def execLdF32 (s : State) : Host.Outcome State Fault Refusal :=
  guardRange s (operandOffset s) 4
    { s with
      cw := memRead32 s (operandOffset s)
      draws := fbDraws s (operandOffset s) 4 }

/-- ST_U16 (R124): `MemWrite(off, 2, reg[CW][15:0])`. -/
def execStU16 (s : State) : Host.Outcome State Fault Refusal :=
  guardRange s (operandOffset s) 2 (memWrite s (operandOffset s) (toBytes16 (operandHalf s)))

/-- ST_I16 (R125): the same bytes as ST_U16 for the same CW. -/
def execStI16 (s : State) : Host.Outcome State Fault Refusal :=
  guardRange s (operandOffset s) 2 (memWrite s (operandOffset s) (toBytes16 (operandHalf s)))

/-- ST_F32 (R126): `MemWrite(off, 4, reg[CW])`. -/
def execStF32 (s : State) : Host.Outcome State Fault Refusal :=
  guardRange s (operandOffset s) 4 (memWrite s (operandOffset s) (toBytes32 (operandWord s)))

end Sys2Proof.Machine
end

