-- ==== Sys2Proof/Machine/Crc.lean ====
section
/-! DEFINITION. The CRC-16/MODBUS generator (40_crc.md): the algorithm and the four CRC commands. -/

namespace Sys2Proof.Machine

/-- One of the 8 iterations of R101. -/
def crcShift (c : Half) : Half :=
  if c.getLsbD 0 then (c >>> 1) ^^^ crcPoly else c >>> 1

/-- `n` iterations of R101. -/
def crcShifts : Nat → Half → Half
  | 0, c => c
  | n + 1, c => crcShifts n (crcShift c)

/-- R101: the byte goes into c[7:0], then 8 iterations. -/
def crcStep (c : Half) (b : Byte) : Half := crcShifts 8 (c ^^^ b.setWidth 16)

/-- R100: `crcFold(c, b :: rest) = crcFold(crcStep(c, b), rest)`. -/
def crcFold (c : Half) : List Byte → Half
  | [] => c
  | b :: rest => crcFold (crcStep c b) rest

/-- R100: `crc16(bs) = crcFold(0xFFFF, bs)`. -/
def crc16 (bs : List Byte) : Half := crcFold crcInitial bs

/-- CRC_INIT (R102). -/
def execCrcInit (s : State) : Host.Outcome State Fault Refusal :=
  .next { s with crc := crcInitial }

/-- CRC_BYTE (R103). -/
def execCrcByte (s : State) : Host.Outcome State Fault Refusal :=
  .next { s with crc := crcStep s.crc (operandByte s) }

/-- CRC_BUF (R105). -/
def execCrcBuf (s : State) : Host.Outcome State Fault Refusal :=
  guardRange s (operandOffset s) (operandCount s)
    { s with
      crc := crc16 (fbBytes s (operandOffset s) (operandCount s))
      draws := fbDraws s (operandOffset s) (operandCount s) }

/-- CRC_ACC (R106). -/
def execCrcAcc (s : State) : Host.Outcome State Fault Refusal :=
  guardRange s (operandOffset s) (operandCount s)
    { s with
      crc := crcFold s.crc (fbBytes s (operandOffset s) (operandCount s))
      draws := fbDraws s (operandOffset s) (operandCount s) }

end Sys2Proof.Machine
end

