-- ==== Sys2Proof/Machine/Parser.lean ====
section
/-! DEFINITION. The frame parser (42_frame_parser.md): the pure decode function of R140, the DECODE command
of R141 to R145, and NOP. -/

namespace Sys2Proof.Machine

/-- The header fields extracted in step 3 of R140. -/
structure Header where
  ver : Byte
  typ : Byte
  seq : Byte
  cmd : Half
  len : Half
deriving DecidableEq, Repr

/-- Step 3 of R140, from the bytes at frame offsets 2, 3, …: version, type, seq, then the big-endian cmd and
len fields (R76). A missing byte would read 0; DECODE always supplies all seven. -/
def Header.ofBytes (bs : List Byte) : Header where
  ver := bs.getD 0 0#8
  typ := bs.getD 1 0#8
  seq := bs.getD 2 0#8
  cmd := fromBytes16 ((bs.drop 3).take 2)
  len := fromBytes16 ((bs.drop 5).take 2)

/-- The length of the whole frame, from its len field alone: `11 + zext(len)` (R76, R79). -/
def Header.frameLen (h : Header) : Nat := headerSize + h.len.toNat + checksumSize

/-! ### The pure function of R140 -/

/-- The tagged result of `decode(view)` (R140). -/
inductive DecodeResult where
  | tooShort
  | badSync
  | incomplete (h : Header)
  | ok (h : Header) (payload : List Byte) (crc : Half) (consumed : Nat)
deriving DecidableEq, Repr

/-- `decode(view)` in the strict order of R140. -/
def decodeView (view : List Byte) : DecodeResult :=
  let h := Header.ofBytes (view.drop 2)
  if view.length < minFrame then .tooShort
  else if view.take 2 ≠ [sync1, sync2] then .badSync
  else if view.length < h.frameLen then .incomplete h
  else
    .ok h ((view.drop headerSize).take h.len.toNat)
      (fromBytes16 ((view.drop (headerSize + h.len.toNat)).take checksumSize))
      h.frameLen

/-! ### The DECODE command -/

/-- What DECODE learns from FB: the result of R140 without the payload, which it never reads (R145). -/
inductive Parse where
  | tooShort
  | badSync
  | incomplete (h : Header)
  | ok (h : Header) (crc : Half)
deriving DecidableEq, Repr

/-- R140 over `FB[base .. base + L)`, reading exactly the bytes of R145 in their order: none when L < 11;
then both sync bytes; then view[2] to view[8]; then the two crc bytes. The second component is the draw
counter after those reads (R199). -/
def parseFb (fb : Memory) (draws base L : Nat) : Parse × Nat :=
  let sync := readBytes fb draws base 2
  let hdr := readBytes fb sync.2 (base + 2) 7
  let h := Header.ofBytes hdr.1
  let tail := readBytes fb hdr.2 (base + headerSize + h.len.toNat) checksumSize
  if L < minFrame then (.tooShort, draws)
  else if sync.1 ≠ [sync1, sync2] then (.badSync, sync.2)
  else if L < h.frameLen then (.incomplete h, hdr.2)
  else (.ok h (fromBytes16 tail.1), tail.2)

/-- The F_ registers of R143: all zero. -/
def zeroFields (s : State) : State :=
  { s with
    fVer := 0#8, fType := 0#8, fSeq := 0#8, fCmd := 0#16, fLen := 0#16
    fPoff := 0#32, fCrc := 0#16, fCons := 0#32, fPt := false }

/-- The F_ registers of R142 and R144, which differ only in F_CRC. -/
def headerFields (base : Nat) (h : Header) (crc : Half) (s : State) : State :=
  { s with
    fVer := h.ver, fType := h.typ, fSeq := h.seq, fCmd := h.cmd, fLen := h.len
    fPoff := BitVec.ofNat 32 (base + headerSize), fCrc := crc
    fCons := BitVec.ofNat 32 h.frameLen, fPt := isPassthrough h.typ }

/-- R142 (Ok), R143 (TooShort, BadSync) and R144 (Incomplete). -/
def recordParse (base : Nat) : Parse → State → State
  | .tooShort, s => { zeroFields s with result := .tooShort, valid := false }
  | .badSync, s => { zeroFields s with result := .badSync, valid := false }
  | .incomplete h, s => { headerFields base h 0#16 s with result := .incomplete, valid := false }
  | .ok h crc, s => { headerFields base h crc s with result := .ok, valid := true }

/-- DECODE at `base` when `base <= FB_LEN`: parse the view, record the result (R141). -/
def decodeAt (s : State) (base : Nat) : State :=
  recordParse base (parseFb s.fb s.draws base (s.fbLen.toNat - base)).1
    { s with draws := (parseFb s.fb s.draws base (s.fbLen.toNat - base)).2 }

/-- DECODE (R141): `if base > reg[FB_LEN] then raise Fault(RANGE)`, which is the check of R104 with n = 0. -/
def execDecodeFrame (s : State) : Host.Outcome State Fault Refusal :=
  .next (if s.fbLen.toNat < operandOffset s then raiseFault .range s else decodeAt s (operandOffset s))

/-- NOP (R149): nothing; CMD was written when the command was issued (R70). -/
def execNop (s : State) : Host.Outcome State Fault Refusal := .next s

end Sys2Proof.Machine
end

