-- ==== Sys2Proof/Machine/Dispatch.lean ====
section
/-! DEFINITION. One arm per command: the command selected by the value in CMD (R70, R72). -/

namespace Sys2Proof.Machine

def exec (i : Instr) (s : State) : Host.Outcome State Fault Refusal :=
  match i with
  | .nop => Sys2Proof.Machine.execNop s
  | .crcInit => Sys2Proof.Machine.execCrcInit s
  | .crcByte => Sys2Proof.Machine.execCrcByte s
  | .crcBuf => Sys2Proof.Machine.execCrcBuf s
  | .crcAcc => Sys2Proof.Machine.execCrcAcc s
  | .ldU16 => Sys2Proof.Machine.execLdU16 s
  | .ldI16 => Sys2Proof.Machine.execLdI16 s
  | .ldF32 => Sys2Proof.Machine.execLdF32 s
  | .stU16 => Sys2Proof.Machine.execStU16 s
  | .stI16 => Sys2Proof.Machine.execStI16 s
  | .stF32 => Sys2Proof.Machine.execStF32 s
  | .decodeFrame => Sys2Proof.Machine.execDecodeFrame s

end Sys2Proof.Machine
end

