-- ==== Sys2Proof/Machine/Ports.lean ====
section
/-! DEFINITION. The host's accesses: the register port, the buffer port, the reset input, and the issue of a
command by a write to CMD. -/

namespace Sys2Proof.Machine

/-- The index of a named register (R22). -/
def RegName.index : RegName → RegIndex
  | .cmd => 0x00#6
  | .status => 0x01#6
  | .a0 => 0x02#6
  | .a1 => 0x03#6
  | .crc => 0x04#6
  | .cw => 0x05#6
  | .fbLen => 0x06#6
  | .fbCap => 0x07#6
  | .fVer => 0x08#6
  | .fType => 0x09#6
  | .fSeq => 0x0A#6
  | .fCmd => 0x0B#6
  | .fLen => 0x0C#6
  | .fPoff => 0x0D#6
  | .fCrc => 0x0E#6
  | .fCons => 0x0F#6
  | .fFlags => 0x10#6

/-- The rows of the register map (R22), in index order. -/
def registerMap : List RegName :=
  [.cmd, .status, .a0, .a1, .crc, .cw, .fbLen, .fbCap,
    .fVer, .fType, .fSeq, .fCmd, .fLen, .fPoff, .fCrc, .fCons, .fFlags]

/-- The register at an index; 0x11 to 0x3F are reserved (R22, R23). -/
def RegName.ofIndex (r : RegIndex) : Option RegName := registerMap[r.toNat]?

/-- The value of a named register; bits a register does not use read 0 (R22, R23). -/
def readReg (s : State) : RegName → Word
  | .cmd => s.cmd
  | .status => statusWord s
  | .a0 => s.a0
  | .a1 => s.a1
  | .crc => s.crc.setWidth 32
  | .cw => s.cw
  | .fbLen => s.fbLen
  | .fbCap => s.config.fbCap
  | .fVer => s.fVer.setWidth 32
  | .fType => s.fType.setWidth 32
  | .fSeq => s.fSeq.setWidth 32
  | .fCmd => s.fCmd.setWidth 32
  | .fLen => s.fLen.setWidth 32
  | .fPoff => s.fPoff
  | .fCrc => s.fCrc.setWidth 32
  | .fCons => s.fCons
  | .fFlags => bitWord s.fPt

/-- The value `REG_RD r` returns: a reserved index reads 0 (R23). -/
def regValue (s : State) (r : RegIndex) : Word :=
  match RegName.ofIndex r with
  | some n => readReg s n
  | none => 0#32

/-- The data of a read access, given to the host. -/
def reply (d : Reply) (s : State) : State := { s with replies := s.replies ++ [d] }

/-- A host write to FB_LEN (R32): accepted up to FB_CAP, clearing VALID; else Fault(RANGE) and the value is
not stored. -/
def writeFbLen (v : Word) (s : State) : State :=
  if v.toNat ≤ s.config.fbCap.toNat then clearValid { s with fbLen := v } else raiseFault .range s

/-- A CMD write: v is stored in CMD, then the command selected by v is performed; a value that is no opcode
raises Fault(ILLEGAL_OP) (R24, R70, R73). -/
def issueCommand (v : Word) (s : State) : Host.Outcome State Fault Refusal :=
  match decode v with
  | .ok i => exec i { s with cmd := v }
  | .error _ => .next (raiseFault .illegalOp { s with cmd := v })

/-- A write to a named register: the RW registers take the value; a write to a read-only register changes
nothing (R22, R23). -/
def writeReg (v : Word) (s : State) : RegName → Host.Outcome State Fault Refusal
  | .cmd => issueCommand v s
  | .a0 => .next { s with a0 := v }
  | .a1 => .next { s with a1 := v }
  | .cw => .next { s with cw := v }
  | .fbLen => .next (writeFbLen v s)
  | .status => .next s
  | .crc => .next s
  | .fbCap => .next s
  | .fVer => .next s
  | .fType => .next s
  | .fSeq => .next s
  | .fCmd => .next s
  | .fLen => .next s
  | .fPoff => .next s
  | .fCrc => .next s
  | .fCons => .next s
  | .fFlags => .next s

/-- `REG_WR r, v`: a write to a reserved index changes nothing (R23). -/
def regWrite (r : RegIndex) (v : Word) (s : State) : Host.Outcome State Fault Refusal :=
  match RegName.ofIndex r with
  | some n => writeReg v s n
  | none => .next s

/-- `BUF_WR a, b` (R51, R53). -/
def bufWrite (a : Word) (b : Byte) (s : State) : State :=
  if a.toNat < s.config.fbCap.toNat then clearValid { s with fb := s.fb.write a.toNat b } else s

/-- `BUF_RD a` (R52, R53); a byte not written since reset gives a free byte (R199). -/
def bufRead (a : Word) (s : State) : State :=
  if a.toNat < s.config.fbCap.toNat then
    reply (.bufData (readByte s.fb s.draws a.toNat).1)
      { s with draws := (readByte s.fb s.draws a.toNat).2 }
  else reply (.bufData 0#8) s

/-- The `reset` access (R190, R191): every register to its reset value, every FB byte not written since
reset. The configuration, the draw counter and the host's own queues are not the FCU's and stay. -/
def hostReset (s : State) : State :=
  { s with
    cmd := 0#32, result := .ok, valid := false, fault := false, fcause := none
    a0 := 0#32, a1 := 0#32, crc := crcInitial, cw := 0#32, fbLen := 0#32
    fVer := 0#8, fType := 0#8, fSeq := 0#8, fCmd := 0#16, fLen := 0#16
    fPoff := 0#32, fCrc := 0#16, fCons := 0#32, fPt := false, fb := [] }

/-- One host access, performed whole (R20, R60). -/
def performAccess (a : Access) (s : State) : Host.Outcome State Fault Refusal :=
  match a with
  | .regWr r v => regWrite r v s
  | .regRd r => .next (reply (.regData (regValue s r)) s)
  | .bufWr a b => .next (bufWrite a b s)
  | .bufRd a => .next (bufRead a s)
  | .reset => .next (hostReset s)

/-- One step of the machine: the host's next access in issue order (R60). "The FCU never acts on its own"
(R20), so with no access to perform nothing changes. -/
def stepAccess (s : State) : Host.Outcome State Fault Refusal :=
  match s.pending with
  | [] => .next s
  | a :: rest => performAccess a { s with pending := rest }

end Sys2Proof.Machine
end

