-- ==== Sys2Proof/Machine/Step.lean ====
section
/-! DEFINITION. The step of the machine, and how the host's interface places a command in front of it. -/

namespace Sys2Proof.Machine

/-- One step: one host access (R60). -/
def step (s : State) : Host.Outcome State Fault Refusal := stepAccess s

/-- `s` with a write of the command word `w` to CMD as the host's very next access. The FCU fetches nothing
(R63); "commands arrive only as values written to CMD", so this stands for the host issuing it
(assumption 2). -/
def State.withFetchWord (s : State) (nbits w : Nat) : State :=
  { s with pending := .regWr RegName.cmd.index (BitVec.ofNat 32 (w % 2 ^ nbits)) :: s.pending }

end Sys2Proof.Machine
end

