-- ==== Sys2Proof/Machine/HostSyntax.lean ====
section
/-! DEFINITION. The host's side as the spec writes it down: host lines, host expressions and host variables
(R82), the pseudo-instructions and their expansions (R83). The FCU knows nothing of it; every line that is
an access is performed by `step` as the host's next access. -/

namespace Sys2Proof.Machine

/-- A host expression "over variables and numbers" (R82), with the operators the spec's host lines use. -/
inductive HostExpr where
  | lit (v : Word)
  | var (x : String)
  | add (e f : HostExpr)
  | sub (e f : HostExpr)
  | shr (e f : HostExpr)
  | and (e f : HostExpr)
  | eq (e f : HostExpr)
deriving DecidableEq, Repr

/-- One host line (R82): an access, or an assignment, which is "the host's own and not FCU accesses". -/
inductive HostLine where
  /-- `wr NAME, v` -/
  | wr (r : RegName) (v : HostExpr)
  /-- `rd NAME -> $x` -/
  | rd (r : RegName) (x : String)
  /-- `wb a, b`: bits [7:0] of b are sent. -/
  | wb (a b : HostExpr)
  /-- `rb a -> $x` -/
  | rb (a : HostExpr) (x : String)
  /-- `reset` -/
  | reset
  /-- `$x = e` -/
  | assign (x : String) (e : HostExpr)
deriving DecidableEq, Repr

/-- The pseudo-instructions (R83). A store's value operand is optional; `bare` is a mnemonic with no operand
list, which "uses A0, A1 and CW as they stand". -/
inductive Pseudo where
  | bare (i : Instr)
  | crcByte (b : HostExpr)
  | crcBuf (off n : HostExpr)
  | crcAcc (off n : HostExpr)
  | ldU16 (off : HostExpr)
  | ldI16 (off : HostExpr)
  | ldF32 (off : HostExpr)
  | stU16 (off : HostExpr) (v : Option HostExpr)
  | stI16 (off : HostExpr) (v : Option HostExpr)
  | stF32 (off : HostExpr) (v : Option HostExpr)
  | decodeFrame (base : HostExpr)
  | wbs (a : HostExpr) (bs : List Byte)
  | setlen (n : HostExpr)
deriving DecidableEq, Repr

/-- `wr CMD, <opcode>`. -/
def cmdLine (i : Instr) : HostLine := .wr .cmd (.lit (encode i))

/-- `[wr CW, v ;]`, the optional first access of a store. -/
def valueLine : Option HostExpr → List HostLine
  | none => []
  | some v => [.wr .cw v]

/-- `wb a, b0 ; wb a+1, b1 ; …`, from offset `k` on. -/
def byteLines (a : HostExpr) : Nat → List Byte → List HostLine
  | _, [] => []
  | k, b :: bs =>
    .wb (if k = 0 then a else .add a (.lit (BitVec.ofNat 32 k))) (.lit (b.setWidth 32))
      :: byteLines a (k + 1) bs

/-- The expansion table of R83. -/
def Pseudo.expand : Pseudo → List HostLine
  | .bare i => [cmdLine i]
  | .crcByte b => [.wr .a0 b, cmdLine .crcByte]
  | .crcBuf off n => [.wr .a0 off, .wr .a1 n, cmdLine .crcBuf]
  | .crcAcc off n => [.wr .a0 off, .wr .a1 n, cmdLine .crcAcc]
  | .ldU16 off => [.wr .a0 off, cmdLine .ldU16]
  | .ldI16 off => [.wr .a0 off, cmdLine .ldI16]
  | .ldF32 off => [.wr .a0 off, cmdLine .ldF32]
  | .stU16 off v => valueLine v ++ [.wr .a0 off, cmdLine .stU16]
  | .stI16 off v => valueLine v ++ [.wr .a0 off, cmdLine .stI16]
  | .stF32 off v => valueLine v ++ [.wr .a0 off, cmdLine .stF32]
  | .decodeFrame base => [.wr .a0 base, cmdLine .decodeFrame]
  | .wbs a bs => byteLines a 0 bs
  | .setlen n => [.wr .fbLen n]

/-- The host's variables, each of 32 bits, newest assignment first. -/
abbrev HostVars := List (String × Word)

/-- The value of an expression over 32-bit unsigned values (R82); `none` if a variable has no value yet. -/
def HostExpr.eval (vars : HostVars) : HostExpr → Option Word
  | .lit v => some v
  | .var x => vars.lookup x
  | .add e f => do return (← e.eval vars) + (← f.eval vars)
  | .sub e f => do return (← e.eval vars) - (← f.eval vars)
  | .shr e f => do return (← e.eval vars) >>> (← f.eval vars).toNat
  | .and e f => do return (← e.eval vars) &&& (← f.eval vars)
  | .eq e f => do return bitWord ((← e.eval vars) == (← f.eval vars))

/-- The access of a host line: (kind, index or address, data) as in R82; `none` for an assignment or an
expression without a value. -/
def HostLine.access (vars : HostVars) : HostLine → Option Access
  | .wr r v => do return .regWr r.index (← v.eval vars)
  | .rd r _ => some (.regRd r.index)
  | .wb a b => do return .bufWr (← a.eval vars) ((← b.eval vars).setWidth 8)
  | .rb a _ => do return .bufRd (← a.eval vars)
  | .reset => some .reset
  | .assign _ _ => none

/-- The 32-bit value a host variable takes from a read. -/
def Reply.value : Reply → Word
  | .regData v => v
  | .bufData b => b.setWidth 32

/-- The host and the FCU together. -/
structure HostRun where
  vars : HostVars
  fcu : State
deriving DecidableEq, Repr

/-- Performs one access as the host's next one; `none` if the machine does not go on. -/
def HostRun.perform (a : Access) (h : HostRun) : Option HostRun :=
  match step { h.fcu with pending := a :: h.fcu.pending } with
  | .next t => some { h with fcu := t }
  | .fault _ => none
  | .refused _ => none

/-- The variable a read line assigns. -/
def HostLine.target : HostLine → Option String
  | .wr _ _ => none
  | .rd _ x => some x
  | .wb _ _ => none
  | .rb _ x => some x
  | .reset => none
  | .assign _ _ => none

/-- Gives the last reply to the read line's variable. -/
def HostRun.bind (target : Option String) (h : HostRun) : HostRun :=
  match target, h.fcu.replies.getLast? with
  | some x, some d => { h with vars := (x, d.value) :: h.vars }
  | _, _ => h

/-- Runs one host line (R82). -/
def HostLine.run (l : HostLine) (h : HostRun) : Option HostRun :=
  match l with
  | .assign x e => do return { h with vars := (x, ← e.eval h.vars) :: h.vars }
  | .wr _ _ | .rd _ _ | .wb _ _ | .rb _ _ | .reset => do
    return ((← h.perform (← l.access h.vars)).bind l.target)

/-- Runs host lines in order: "performed in the order the host issues it, one at a time" (R60). -/
def runLines : List HostLine → HostRun → Option HostRun
  | [], h => some h
  | l :: ls, h => do runLines ls (← l.run h)

end Sys2Proof.Machine
end

