-- ==== Sys2Proof/Safety.lean ====
section
/-! DEFINITION. The terms in which claims are made: the invariants of a run, what "VALID = 1" means, the bytes
a command reads said in closed form, and the frame a host builds. -/

namespace Sys2Proof.Machine

/-! ### A safe run -/

/-- "a claim about a host program takes FAULT = 0 at its end as a premise" (R177). -/
def NoFault (s : State) : Prop := s.fault = false

/-- Where an Ok frame lies: inside `FB[0 .. FB_LEN)` (R142, R35). -/
structure ViewInside (s : State) : Prop where
  result_ok : s.result = .ok
  after_header : headerSize ≤ s.fPoff.toNat
  inside : s.fPoff.toNat + s.fLen.toNat + checksumSize ≤ s.fbLen.toNat
  consumed : s.fCons.toNat = headerSize + s.fLen.toNat + checksumSize

/-- What every step keeps: a legal configuration (R7), FB_LEN <= FB_CAP (R32, R39), the canonical form of FB
with no byte outside it (R50), FAULT = 1 exactly when FCAUSE names a cause (R170), PT as R148 classifies
F_TYPE, and an Ok view inside FB. -/
structure State.Inv (s : State) : Prop where
  config_ok : s.config.wellFormed = true
  len_le_cap : s.fbLen.toNat ≤ s.config.fbCap.toNat
  fb_wf : s.fb.wf
  fb_below : s.fb.below s.config.fbCap.toNat
  cause : s.fault = s.fcause.isSome
  pt : s.fPt = isPassthrough s.fType
  view : s.valid = true → ViewInside s

/-- Every byte of FB at `a`, `a + 1`, … that has been written since reset is the one of `bs`. -/
def Agrees (fb : Memory) (a : Nat) (bs : List Byte) : Prop :=
  ∀ (i : Nat) (h : i < bs.length) (b : Byte), fb.read (a + i) = some b → b = bs[i]

/-- Every byte of `bs` has been written to FB at `a`, `a + 1`, …. -/
def Holds (fb : Memory) (a : Nat) (bs : List Byte) : Prop :=
  ∀ (i : Nat) (h : i < bs.length), fb.read (a + i) = some bs[i]

/-- The header of the frame that the F_ registers describe (R76, R34, R35). -/
def shownHeader (s : State) : List Byte :=
  [sync1, sync2, s.fVer, s.fType, s.fSeq] ++ toBytes16 s.fCmd ++ toBytes16 s.fLen

/-- R26: "VALID = 1 therefore means: no byte of FB and not FB_LEN has been changed since the Ok DECODE that
filled the F_ registers": while VALID is 1 the frame lies inside FB and the header and crc bytes in FB are
those the registers show. -/
def ViewSound (s : State) : Prop :=
  s.valid = true →
    ViewInside s ∧
    Agrees s.fb (s.fPoff.toNat - headerSize) (shownHeader s) ∧
    Agrees s.fb (s.fPoff.toNat + s.fLen.toNat) (toBytes16 s.fCrc)

/-! ### The bytes a command reads, in closed form (R199) -/

/-- How many of the `n` bytes at `a` have not been written since reset. -/
def unwritten (fb : Memory) (a n : Nat) : Nat :=
  (List.range n).countP (fun i => (fb.read (a + i)).isNone)

/-- The i-th byte that reading from `a` on gives: the byte written there, else a free byte of its own. -/
def byteRead (fb : Memory) (draws a i : Nat) : Byte :=
  (fb.read (a + i)).getD (Config.freeByte (draws + unwritten fb a i))

/-- The `n` bytes that reading from `a` on gives. -/
def bytesRead (fb : Memory) (draws a n : Nat) : List Byte :=
  (List.range n).map (byteRead fb draws a)

/-- R145: "The FB bytes a DECODE reads": none when the view has fewer than 11 bytes; the two sync bytes when it
has; view[2] to view[8] when both match; the two crc bytes when the result is Ok. What is at an unwritten byte
is what DECODE draws there (assumption 1). -/
inductive DecodeReads (s : State) (a : Nat) : Prop
  | sync (long : 11 ≤ s.fbLen.toNat - s.a0.toNat) (here : s.a0.toNat ≤ a ∧ a < s.a0.toNat + 2)
  | header (long : 11 ≤ s.fbLen.toNat - s.a0.toNat)
      (sync : byteRead s.fb s.draws s.a0.toNat 0 = sync1 ∧ byteRead s.fb s.draws s.a0.toNat 1 = sync2)
      (here : s.a0.toNat + 2 ≤ a ∧ a < s.a0.toNat + 9)
  | crc (len : Half)
      (declared : len = byteRead s.fb s.draws s.a0.toNat 7 ++ byteRead s.fb s.draws s.a0.toNat 8)
      (long : 11 + len.toNat ≤ s.fbLen.toNat - s.a0.toNat)
      (sync : byteRead s.fb s.draws s.a0.toNat 0 = sync1 ∧ byteRead s.fb s.draws s.a0.toNat 1 = sync2)
      (here : s.a0.toNat + 9 + len.toNat ≤ a ∧ a < s.a0.toNat + 11 + len.toNat)

/-! ### The frame a host builds (R76, R80) -/

/-- The bytes the checksum covers: version through the last payload byte (R109, R154). -/
def checkedPart (typ seq : Byte) (cmd : Half) (payload : List Byte) : List Byte :=
  [protocolVersion, typ, seq] ++ toBytes16 cmd ++ toBytes16 (BitVec.ofNat 16 payload.length) ++ payload

/-- The wire frame of R76 with its checksum, big-endian (R80, R108). -/
def wireFrame (typ seq : Byte) (cmd : Half) (payload : List Byte) : List Byte :=
  [sync1, sync2] ++ checkedPart typ seq cmd payload ++ toBytes16 (crc16 (checkedPart typ seq cmd payload))

/-! ### What a step does, for rules about the whole machine -/

/-- The next access of the host. -/
def Next (s : State) (a : Access) (rest : List Access) : Prop := s.pending = a :: rest

/-- The write to CMD that issues a command (R70, R72). -/
def issue (i : Instr) : Access := .regWr 0x00#6 (encode i)

/-- How many bytes from A0 on a command reaches (R171, R104, R141); `none`: it checks no range. -/
def rangeOf (s : State) : Instr → Option Nat
  | .nop => none
  | .crcInit => none
  | .crcByte => none
  | .crcBuf => some s.a1.toNat
  | .crcAcc => some s.a1.toNat
  | .ldU16 => some 2
  | .ldI16 => some 2
  | .ldF32 => some 4
  | .stU16 => some 2
  | .stI16 => some 2
  | .stF32 => some 4
  | .decodeFrame => some 0

/-- The table of fault causes (R171): which access raises which fault in state `s`. "No other access
faults." -/
inductive Raises (s : State) : Access → FaultCause → Prop
  | illegal (v : Word) (h : ∀ i : Instr, v ≠ encode i) : Raises s (.regWr 0x00#6 v) .illegalOp
  | range (i : Instr) (n : Nat) (hn : rangeOf s i = some n) (h : s.fbLen.toNat < s.a0.toNat + n) :
      Raises s (issue i) .range
  | length (v : Word) (h : s.config.fbCap.toNat < v.toNat) : Raises s (.regWr 0x06#6 v) .range

/-- An access that R26 says clears VALID when it is not refused: an accepted buffer write, a store command,
a write to FB_LEN, reset. -/
inductive Changes (s : State) : Access → Prop
  | bufWr (a : Word) (b : Byte) (h : a.toNat < s.config.fbCap.toNat) : Changes s (.bufWr a b)
  | stU16 : Changes s (issue .stU16)
  | stI16 : Changes s (issue .stI16)
  | stF32 : Changes s (issue .stF32)
  | fbLen (v : Word) : Changes s (.regWr 0x06#6 v)
  | reset : Changes s .reset

/-- The accesses of one CRC_BYTE on a given byte: `wr A0, b ; wr CMD, 0x02` (R83). -/
def crcByteAccesses (b : Byte) : List Access := [.regWr 0x02#6 (b.setWidth 32), issue .crcByte]

/-- Run from `s`, the accesses of `p` (R83) end where the command `i` ends at `operands`, the state with the
operand registers written, once its opcode is in CMD. -/
def Pseudo.Performs (p : Pseudo) (i : Instr) (vars : HostVars) (s operands : State) : Prop :=
  ∃ t : State, exec i { operands with cmd := encode i } = .next t ∧
    runLines p.expand ⟨vars, s⟩ = some ⟨vars, t⟩

end Sys2Proof.Machine
end

