-- ==== Sys2Proof/Certificates/Slice0/Obligations.lean ====
section
/-! DEFINITION. The statements for the provers, each from a numbered rule of the spec. Every statement of a
command's effect gives the whole next state, so it is the command's frame as well: a field not named keeps its
value, the bytes of FB included. A byte a command reads is `byteRead`: the byte written there, else a free byte
(R199, assumption 1); what a statement says holds whatever the free bytes are. -/

open Sys2Proof Sys2Proof.Machine

/-! ### Encoding and issue -/

/-- R71, R72, R73: a value is a command exactly when it is one of the opcodes, compared as a whole; every
other value is refused by the decoder under the name of R73. -/
def Obligations.DecodeAgreesWithEncode : Prop :=
  (∀ (v : Word) (i : Instr), decode v = .ok i ↔ v = encode i) ∧
  ∀ v : Word, (∀ i : Instr, v ≠ encode i) → decode v = .error (.illegalOp v)

/-- R72: the opcode map, word by word. -/
def Obligations.OpcodeMapDecodes : Prop :=
  decode 0x00000000#32 = .ok .nop ∧ decode 0x00000001#32 = .ok .crcInit ∧
  decode 0x00000002#32 = .ok .crcByte ∧ decode 0x00000003#32 = .ok .crcBuf ∧
  decode 0x00000004#32 = .ok .crcAcc ∧ decode 0x00000010#32 = .ok .ldU16 ∧
  decode 0x00000011#32 = .ok .ldI16 ∧ decode 0x00000012#32 = .ok .ldF32 ∧
  decode 0x00000018#32 = .ok .stU16 ∧ decode 0x00000019#32 = .ok .stI16 ∧
  decode 0x0000001A#32 = .ok .stF32 ∧ decode 0x00000020#32 = .ok .decodeFrame

/-- R70, R24: a write of an opcode to CMD stores it in CMD and performs that command, in one step. -/
def Obligations.StepRunsTheIssuedCommand : Prop :=
  ∀ (s : State) (v : Word) (rest : List Access) (i : Instr),
    s.pending = .regWr 0x00#6 v :: rest → decode v = .ok i →
    step s = exec i { s with pending := rest, cmd := v }

/-- The model's choice (assumption 2): the word the host's interface places is the very next command issued,
and the accesses already pending stay pending. -/
def Obligations.PlacedWordIsTheNextCommand : Prop :=
  ∀ (s : State) (i : Instr),
    step (s.withFetchWord 32 (encode i).toNat) = exec i { s with cmd := encode i }

/-- R73, R170: a write of any other value to CMD stores it in CMD and raises Fault(ILLEGAL_OP); nothing else
changes. -/
def Obligations.IllegalCommandRaisesIllegalOp : Prop :=
  ∀ (s : State) (v : Word) (rest : List Access),
    s.pending = .regWr 0x00#6 v :: rest → (∀ i : Instr, v ≠ encode i) →
    step s = .next { s with
      pending := rest, cmd := v, fault := true
      fcause := if s.fault then s.fcause else some .illegalOp }

/-- The model's reading of R20, "The FCU never acts on its own" (assumption 2): with no access to perform, a
step changes nothing. -/
def Obligations.NothingHappensWithoutAnAccess : Prop :=
  ∀ s : State, s.pending = [] → step s = .next s

/-! ### NOP and the CRC commands -/

/-- R149: NOP does nothing; issued by a write of 0 to CMD it changes only CMD, to 0. -/
def Obligations.NopChangesNothing : Prop :=
  (∀ s : State, exec .nop s = .next s) ∧
  ∀ (s : State) (rest : List Access), s.pending = .regWr 0x00#6 0x00000000#32 :: rest →
    step s = .next { s with pending := rest, cmd := 0x00000000#32 }

/-- R102: CRC_INIT writes 0xFFFF to CRC and nothing else. -/
def Obligations.CrcInitSetsAllOnes : Prop :=
  ∀ s : State, exec .crcInit s = .next { s with crc := 0xFFFF#16 }

/-- R103: CRC_BYTE folds A0[7:0] into CRC, whatever A0[31:8] is, and changes nothing else. -/
def Obligations.CrcByteFoldsLowByte : Prop :=
  ∀ (s : State) (high : BitVec 24) (b : Byte), s.a0 = high ++ b →
    exec .crcByte s = .next { s with crc := crcStep s.crc b }

/-- R100, R101: crcStep is the exclusive or with the byte followed by 8 iterations of the shift, and crc16
folds the bytes from 0xFFFF, first byte first. -/
def Obligations.CrcIsTheModbusAlgorithm : Prop :=
  (∀ (c : Half) (b : Byte),
    crcStep c b =
      (fun x : Half => if x.getLsbD 0 then (x >>> 1) ^^^ 0xA001#16 else x >>> 1)^[8]
        (c ^^^ b.setWidth 16)) ∧
  ∀ bs : List Byte, crc16 bs = bs.foldl crcStep 0xFFFF#16

/-- R105: in range, CRC_BUF sets CRC to crc16 of the A1 bytes at A0. That an unwritten byte draws a free byte is the
model's choice of the two in R199 (assumption 1). -/
def Obligations.CrcBufComputesCrc : Prop :=
  ∀ s : State, s.a0.toNat + s.a1.toNat ≤ s.fbLen.toNat →
    exec .crcBuf s = .next { s with
      crc := crc16 (bytesRead s.fb s.draws s.a0.toNat s.a1.toNat)
      draws := s.draws + unwritten s.fb s.a0.toNat s.a1.toNat }

/-- R106: in range, CRC_ACC folds the A1 bytes at A0 into CRC. That an unwritten byte draws a free byte is the
model's choice of the two in R199 (assumption 1). -/
def Obligations.CrcAccContinuesCrc : Prop :=
  ∀ s : State, s.a0.toNat + s.a1.toNat ≤ s.fbLen.toNat →
    exec .crcAcc s = .next { s with
      crc := crcFold s.crc (bytesRead s.fb s.draws s.a0.toNat s.a1.toNat)
      draws := s.draws + unwritten s.fb s.a0.toNat s.a1.toNat }

/-- R107: a range split into CRC_BUF over its first n bytes and CRC_ACC over the next m gives the CRC of one
CRC_BUF over all n + m, and draws the same free bytes. That an unwritten byte draws a free byte is the
model's choice of the two in R199 (assumption 1). -/
def Obligations.SplitRangeGivesSameCrc : Prop :=
  ∀ (s : State) (off n m : Nat),
    off + n + m ≤ s.fbLen.toNat →
    ∃ t u w : State,
      exec .crcBuf { s with a0 := BitVec.ofNat 32 off, a1 := BitVec.ofNat 32 n } = .next t ∧
      exec .crcAcc { t with a0 := BitVec.ofNat 32 (off + n), a1 := BitVec.ofNat 32 m } = .next u ∧
      exec .crcBuf { s with a0 := BitVec.ofNat 32 off, a1 := BitVec.ofNat 32 (n + m) } = .next w ∧
      u.crc = w.crc ∧ u.draws = w.draws

/-- R107: where the n bytes at off have been written, CRC_BUF has the effect of CRC_INIT followed by n
CRC_BYTE commands on those bytes, performed by the host as 1 + 2n accesses. The queue that carries them is the
model's own (assumption 2). -/
def Obligations.CrcBufEqualsByteByByte : Prop :=
  ∀ (s : State) (bs : List Byte),
    s.a0.toNat + s.a1.toNat ≤ s.fbLen.toNat → bs.length = s.a1.toNat → Holds s.fb s.a0.toNat bs →
    ∃ t u : State,
      exec .crcBuf s = .next t ∧
      Host.Core.run core (1 + 2 * bs.length)
        { s with pending := issue .crcInit :: bs.flatMap crcByteAccesses } = .next u ∧
      u.crc = t.crc ∧ u.fault = s.fault ∧ u.pending = [] ∧ ∀ a, u.fb.read a = s.fb.read a

/-- Derived from R101: the step is linear over exclusive or. -/
def Obligations.CrcStepIsLinear : Prop :=
  ∀ (c d : Half) (a b : Byte), crcStep (c ^^^ d) (a ^^^ b) = crcStep c a ^^^ crcStep d b

/-- Derived from R100, R101: two byte sequences that differ in exactly one byte have different checksums, so a
host that compares them (R152) notices any one changed byte. -/
def Obligations.OneChangedByteChangesCrc : Prop :=
  ∀ (before after : List Byte) (x y : Byte), x ≠ y →
    crc16 (before ++ x :: after) ≠ crc16 (before ++ y :: after)

/-! ### The codec -/

/-- R121: in range, LD_U16 puts the two bytes at A0 in CW[15:0], the first one high, and 0 in CW[31:16]. That an unwritten byte draws a free byte is the
model's choice of the two in R199 (assumption 1). -/
def Obligations.LoadU16ZeroExtends : Prop :=
  ∀ s : State, s.a0.toNat + 2 ≤ s.fbLen.toNat →
    exec .ldU16 s = .next { s with
      cw := 0x0000#16 ++ (byteRead s.fb s.draws s.a0.toNat 0 ++ byteRead s.fb s.draws s.a0.toNat 1)
      draws := s.draws + unwritten s.fb s.a0.toNat 2 }

/-- R122: in range, LD_I16 puts the two bytes at A0 in CW[15:0] and copies their top bit into CW[31:16]. That an unwritten byte draws a free byte is the
model's choice of the two in R199 (assumption 1). -/
def Obligations.LoadI16SignExtends : Prop :=
  ∀ s : State, s.a0.toNat + 2 ≤ s.fbLen.toNat →
    exec .ldI16 s = .next { s with
      cw := (if (byteRead s.fb s.draws s.a0.toNat 0).msb then 0xFFFF#16 else 0x0000#16) ++
        (byteRead s.fb s.draws s.a0.toNat 0 ++ byteRead s.fb s.draws s.a0.toNat 1)
      draws := s.draws + unwritten s.fb s.a0.toNat 2 }

/-- R123: in range, LD_F32 copies the four bytes at A0 to CW bit for bit, the first one high. That an unwritten byte draws a free byte is the
model's choice of the two in R199 (assumption 1). -/
def Obligations.LoadF32CopiesPattern : Prop :=
  ∀ s : State, s.a0.toNat + 4 ≤ s.fbLen.toNat →
    exec .ldF32 s = .next { s with
      cw := byteRead s.fb s.draws s.a0.toNat 0 ++ byteRead s.fb s.draws s.a0.toNat 1 ++
        byteRead s.fb s.draws s.a0.toNat 2 ++ byteRead s.fb s.draws s.a0.toNat 3
      draws := s.draws + unwritten s.fb s.a0.toNat 4 }

/-- R124, R125: in range, ST_U16 and ST_I16 write CW[15:8] to FB[A0] and CW[7:0] to FB[A0 + 1], whatever
CW[31:16] is, and clear VALID; every other byte and register is unchanged. Out of range they raise Fault(RANGE)
and write nothing. -/
def Obligations.Store16WritesTwoBytes : Prop :=
  ∀ (s : State) (i : Instr) (top : Half) (high low : Byte),
    i = .stU16 ∨ i = .stI16 → s.cw = top ++ (high ++ low) →
    (s.a0.toNat + 2 ≤ s.fbLen.toNat →
      ∃ t : State, exec i s = .next t ∧ t = { s with fb := t.fb, valid := false } ∧
        t.fb.read (operandOffset s) = some high ∧ t.fb.read (operandOffset s + 1) = some low ∧
        ∀ a, a < operandOffset s ∨ operandOffset s + 2 ≤ a → t.fb.read a = s.fb.read a) ∧
    (s.fbLen.toNat < s.a0.toNat + 2 →
      exec i s = .next { s with fault := true, fcause := if s.fault then s.fcause else some .range })

/-- R126: in range, ST_F32 writes CW[31:24] to FB[A0], …, CW[7:0] to FB[A0 + 3] and clears VALID; every other
byte and register is unchanged. Out of range it raises Fault(RANGE) and writes nothing. -/
def Obligations.StoreF32WritesFourBytes : Prop :=
  ∀ (s : State) (b0 b1 b2 b3 : Byte),
    s.cw = b0 ++ b1 ++ b2 ++ b3 →
    (s.a0.toNat + 4 ≤ s.fbLen.toNat →
      ∃ t : State, exec .stF32 s = .next t ∧ t = { s with fb := t.fb, valid := false } ∧
        t.fb.read (operandOffset s) = some b0 ∧ t.fb.read (operandOffset s + 1) = some b1 ∧
        t.fb.read (operandOffset s + 2) = some b2 ∧ t.fb.read (operandOffset s + 3) = some b3 ∧
        ∀ a, a < operandOffset s ∨ operandOffset s + 4 ≤ a → t.fb.read a = s.fb.read a) ∧
    (s.fbLen.toNat < s.a0.toNat + 4 →
      exec .stF32 s = .next { s with
        fault := true, fcause := if s.fault then s.fcause else some .range })

/-- R120: the conversions are inverse to each other, in both directions and both sizes. -/
def Obligations.ConversionsAreInverse : Prop :=
  (∀ v : Half, fromBytes16 (toBytes16 v) = v) ∧ (∀ v : Word, fromBytes32 (toBytes32 v) = v) ∧
  (∀ bs : List Byte, bs.length = 2 → toBytes16 (fromBytes16 bs) = bs) ∧
  (∀ bs : List Byte, bs.length = 4 → toBytes32 (fromBytes32 bs) = bs)

/-- R128: a store then a load at the same offset: the float32 pattern comes back whole, CW[15:0] comes back
zero-extended or sign-extended; no free byte is drawn and no fault is raised. -/
def Obligations.StoreThenLoadRoundTrips : Prop :=
  ∀ s : State,
    (s.a0.toNat + 4 ≤ s.fbLen.toNat → ∃ t, exec .stF32 s = .next t ∧ exec .ldF32 t = .next t) ∧
    (s.a0.toNat + 2 ≤ s.fbLen.toNat → ∃ t, exec .stU16 s = .next t ∧
      exec .ldU16 t = .next { t with cw := (s.cw.setWidth 16).setWidth 32 }) ∧
    (s.a0.toNat + 2 ≤ s.fbLen.toNat → ∃ t, exec .stI16 s = .next t ∧
      exec .ldI16 t = .next { t with cw := (s.cw.setWidth 16).signExtend 32 })

/-- R128: where the bytes at the offset have been written, a load then a store of the same kind at the same
offset rewrites the same bytes and clears VALID. -/
def Obligations.LoadThenStoreRewritesSameBytes : Prop :=
  ∀ (s : State) (bs : List Byte) (ld st : Instr),
    (ld = .ldU16 ∧ st = .stU16 ∧ bs.length = 2) ∨ (ld = .ldI16 ∧ st = .stI16 ∧ bs.length = 2) ∨
      (ld = .ldF32 ∧ st = .stF32 ∧ bs.length = 4) →
    s.a0.toNat + bs.length ≤ s.fbLen.toNat → Holds s.fb s.a0.toNat bs → s.fb.wf →
    ∃ t, exec ld s = .next t ∧ exec st t = .next { t with valid := false }

/-- R56: a float32 stored at a and read back as two uint16 at a and a + 2 gives CW[31:16] and CW[15:0]. -/
def Obligations.FloatReadsBackAsTwoHalves : Prop :=
  ∀ (s : State) (high low : Half), s.cw = high ++ low → s.a0.toNat + 4 ≤ s.fbLen.toNat →
    ∃ t, exec .stF32 s = .next t ∧
      exec .ldU16 t = .next { t with cw := high.setWidth 32 } ∧
      exec .ldU16 { t with a0 := s.a0 + 2#32 } =
        .next { t with a0 := s.a0 + 2#32, cw := low.setWidth 32 }

/-! ### Range faults -/

/-- R170, R171, R104: a ranged command whose range does not lie below FB_LEN raises Fault(RANGE): FAULT is set,
FCAUSE records RANGE unless a fault was recorded before, and nothing else changes. -/
def Obligations.OutOfRangeCommandFaults : Prop :=
  ∀ (s : State) (i : Instr) (n : Nat),
    ((i = .crcBuf ∨ i = .crcAcc) ∧ n = s.a1.toNat) ∨
      ((i = .ldU16 ∨ i = .ldI16 ∨ i = .stU16 ∨ i = .stI16) ∧ n = 2) ∨
      ((i = .ldF32 ∨ i = .stF32) ∧ n = 4) ∨ (i = .decodeFrame ∧ n = 0) →
    s.fbLen.toNat < s.a0.toNat + n →
    exec i s = .next { s with
      fault := true, fcause := if s.fault then s.fcause else some .range }

/-! ### The frame parser -/

/-- R143, R140 step 1: a view of fewer than 11 bytes gives TooShort: RESULT 1, VALID 0, every F_ register 0;
no byte is read. -/
def Obligations.DecodeTooShort : Prop :=
  ∀ s : State, s.a0.toNat ≤ s.fbLen.toNat → s.fbLen.toNat - s.a0.toNat < 11 →
    exec .decodeFrame s = .next { s with
      result := .tooShort, valid := false, fVer := 0#8, fType := 0#8, fSeq := 0#8, fCmd := 0#16
      fLen := 0#16, fPoff := 0#32, fCrc := 0#16, fCons := 0#32, fPt := false }

/-- R143, R140 step 2: 11 bytes or more without the sync bytes 0xAA 0x55 give BadSync: RESULT 2, VALID 0, every
F_ register 0; only the two sync bytes are read. That an unwritten byte draws a free byte is the
model's choice of the two in R199 (assumption 1). -/
def Obligations.DecodeBadSync : Prop :=
  ∀ s : State, s.a0.toNat + 11 ≤ s.fbLen.toNat →
    ¬(byteRead s.fb s.draws s.a0.toNat 0 = 0xAA#8 ∧ byteRead s.fb s.draws s.a0.toNat 1 = 0x55#8) →
    exec .decodeFrame s = .next { s with
      result := .badSync, valid := false, fVer := 0#8, fType := 0#8, fSeq := 0#8, fCmd := 0#16
      fLen := 0#16, fPoff := 0#32, fCrc := 0#16, fCons := 0#32, fPt := false
      draws := s.draws + unwritten s.fb s.a0.toNat 2 }

/-- R144, R148: with the sync bytes but fewer than 11 + len bytes the result is Incomplete: RESULT 3, VALID 0,
the header fields, F_POFF = base + 9, F_CRC = 0, F_CONS = 11 + len, PT by the type. That an unwritten byte draws a free byte is the
model's choice of the two in R199 (assumption 1). -/
def Obligations.DecodeIncomplete : Prop :=
  ∀ (s : State) (len : Half),
    byteRead s.fb s.draws s.a0.toNat 0 = 0xAA#8 → byteRead s.fb s.draws s.a0.toNat 1 = 0x55#8 →
    len = byteRead s.fb s.draws s.a0.toNat 7 ++ byteRead s.fb s.draws s.a0.toNat 8 →
    s.a0.toNat + 11 ≤ s.fbLen.toNat → s.fbLen.toNat < s.a0.toNat + 11 + len.toNat →
    exec .decodeFrame s = .next { s with
      result := .incomplete, valid := false
      fVer := byteRead s.fb s.draws s.a0.toNat 2
      fType := byteRead s.fb s.draws s.a0.toNat 3
      fSeq := byteRead s.fb s.draws s.a0.toNat 4
      fCmd := byteRead s.fb s.draws s.a0.toNat 5 ++ byteRead s.fb s.draws s.a0.toNat 6
      fLen := len
      fPoff := s.a0 + 9#32
      fCrc := 0#16
      fCons := 11#32 + len.setWidth 32
      fPt := decide (0x80 ≤ (byteRead s.fb s.draws s.a0.toNat 3).toNat ∧
        (byteRead s.fb s.draws s.a0.toNat 3).toNat ≤ 0xEF)
      draws := s.draws + unwritten s.fb s.a0.toNat 9 }

/-- R142, R148: with the sync bytes and 11 + len bytes the result is Ok: RESULT 0, VALID 1, the header fields,
F_POFF = base + 9, F_CRC the two bytes after the payload, F_CONS = 11 + len, PT by the type. Nothing else is
checked (R146), and of the payload nothing is read (R145). That an unwritten byte draws a free byte is the
model's choice of the two in R199 (assumption 1). -/
def Obligations.DecodeOk : Prop :=
  ∀ (s : State) (len : Half) (d tail : Nat),
    byteRead s.fb s.draws s.a0.toNat 0 = 0xAA#8 → byteRead s.fb s.draws s.a0.toNat 1 = 0x55#8 →
    len = byteRead s.fb s.draws s.a0.toNat 7 ++ byteRead s.fb s.draws s.a0.toNat 8 →
    s.a0.toNat + 11 + len.toNat ≤ s.fbLen.toNat →
    d = s.draws + unwritten s.fb s.a0.toNat 9 → tail = s.a0.toNat + 9 + len.toNat →
    exec .decodeFrame s = .next { s with
      result := .ok, valid := true
      fVer := byteRead s.fb s.draws s.a0.toNat 2
      fType := byteRead s.fb s.draws s.a0.toNat 3
      fSeq := byteRead s.fb s.draws s.a0.toNat 4
      fCmd := byteRead s.fb s.draws s.a0.toNat 5 ++ byteRead s.fb s.draws s.a0.toNat 6
      fLen := len
      fPoff := s.a0 + 9#32
      fCrc := byteRead s.fb d tail 0 ++ byteRead s.fb d tail 1
      fCons := 11#32 + len.setWidth 32
      fPt := decide (0x80 ≤ (byteRead s.fb s.draws s.a0.toNat 3).toNat ∧
        (byteRead s.fb s.draws s.a0.toNat 3).toNat ≤ 0xEF)
      draws := d + unwritten s.fb tail 2 }

/-- R154: the laws of the pure decode: TooShort for 10 bytes or fewer whatever they are; BadSync from 11 bytes
on without the sync bytes; with them, Incomplete below 11 + len bytes and Ok from there on, with
consumed = 11 + len not above the length. -/
def Obligations.PureDecodeLaws : Prop :=
  (∀ v : List Byte, v.length ≤ 10 → decodeView v = .tooShort) ∧
  (∀ (x y : Byte) (v : List Byte), 9 ≤ v.length → ¬(x = 0xAA#8 ∧ y = 0x55#8) →
    decodeView (x :: y :: v) = .badSync) ∧
  (∀ (ver typ seq c1 c0 l1 l0 : Byte) (v : List Byte), 2 ≤ v.length → v.length < 2 + (l1 ++ l0).toNat →
    decodeView (0xAA#8 :: 0x55#8 :: ver :: typ :: seq :: c1 :: c0 :: l1 :: l0 :: v) =
      .incomplete ⟨ver, typ, seq, c1 ++ c0, l1 ++ l0⟩) ∧
  (∀ (ver typ seq c1 c0 l1 l0 k1 k0 : Byte) (payload more : List Byte),
    payload.length = (l1 ++ l0).toNat →
    decodeView (0xAA#8 :: 0x55#8 :: ver :: typ :: seq :: c1 :: c0 :: l1 :: l0 ::
        (payload ++ k1 :: k0 :: more)) =
      .ok ⟨ver, typ, seq, c1 ++ c0, l1 ++ l0⟩ payload (k1 ++ k0) (11 + payload.length))

/-- R154, R76, R80: a frame built to the wire layout, followed by any bytes, decodes to Ok with the same type,
seq, cmd and payload, its crc field the checksum of its bytes 2 to 9 + len - 1, and consumed = 11 + len. -/
def Obligations.BuiltFrameDecodesToItself : Prop :=
  ∀ (typ seq : Byte) (cmd : Half) (payload more : List Byte), payload.length ≤ 65535 →
    decodeView (wireFrame typ seq cmd payload ++ more) =
        .ok ⟨0x10#8, typ, seq, cmd, BitVec.ofNat 16 payload.length⟩ payload
          (crc16 (((wireFrame typ seq cmd payload).drop 2).take (7 + payload.length)))
          (11 + payload.length) ∧
      (wireFrame typ seq cmd payload).length = 11 + payload.length

/-- R140 to R144, R148: where the bytes of the view have been written, DECODE records exactly what the pure
decode of that view gives, in RESULT, VALID and every F_ register; after Ok the payload is
FB[F_POFF .. F_POFF + F_LEN) (R150). -/
def Obligations.DecodeRefinesPureDecode : Prop :=
  ∀ (s : State) (view : List Byte),
    s.a0.toNat ≤ s.fbLen.toNat → view.length = s.fbLen.toNat - s.a0.toNat → Holds s.fb s.a0.toNat view →
    ∃ t, exec .decodeFrame s = .next t ∧ t.draws = s.draws ∧ t.fb = s.fb ∧
      t.fPt = isPassthrough t.fType ∧
      match decodeView view with
      | .tooShort =>
        t.result = .tooShort ∧ t.valid = false ∧ t.fVer = 0#8 ∧ t.fType = 0#8 ∧ t.fSeq = 0#8 ∧
          t.fCmd = 0#16 ∧ t.fLen = 0#16 ∧ t.fPoff = 0#32 ∧ t.fCrc = 0#16 ∧ t.fCons = 0#32 ∧ t.fPt = false
      | .badSync =>
        t.result = .badSync ∧ t.valid = false ∧ t.fVer = 0#8 ∧ t.fType = 0#8 ∧ t.fSeq = 0#8 ∧
          t.fCmd = 0#16 ∧ t.fLen = 0#16 ∧ t.fPoff = 0#32 ∧ t.fCrc = 0#16 ∧ t.fCons = 0#32 ∧ t.fPt = false
      | .incomplete h =>
        t.result = .incomplete ∧ t.valid = false ∧ t.fVer = h.ver ∧ t.fType = h.typ ∧ t.fSeq = h.seq ∧
          t.fCmd = h.cmd ∧ t.fLen = h.len ∧ t.fCrc = 0#16 ∧ t.fPoff.toNat = s.a0.toNat + 9 ∧
          t.fCons.toNat = 11 + h.len.toNat ∧ t.fPt = isPassthrough h.typ
      | .ok h payload crc consumed =>
        t.result = .ok ∧ t.valid = true ∧ t.fVer = h.ver ∧ t.fType = h.typ ∧ t.fSeq = h.seq ∧
          t.fCmd = h.cmd ∧ t.fLen = h.len ∧ t.fCrc = crc ∧ t.fPoff.toNat = s.a0.toNat + 9 ∧
          t.fCons.toNat = consumed ∧ t.fPt = isPassthrough h.typ ∧
          payload.length = t.fLen.toNat ∧ Holds t.fb t.fPoff.toNat payload

/-- R145: DECODE reads none when the view is too short, the two sync bytes, the header after matching ones, the
crc bytes after Ok, and no other byte: two states that agree on those decode alike, whatever the payload and
every other byte are. The sync bytes and the declared length are those DECODE reads, and an unwritten one of
them draws a free byte, the model's choice of the two in R199 (assumption 1). -/
def Obligations.DecodeNeverReadsThePayload : Prop :=
  ∀ (s : State) (fb : Memory), (∀ a, DecodeReads s a → fb.read a = s.fb.read a) →
    ∃ t, exec .decodeFrame s = .next t ∧ exec .decodeFrame { s with fb := fb } = .next { t with fb := fb }

/-- R197: a frame whose 11 + len exceeds FB_CAP - base never completes: however many bytes arrive and whatever
they are, DECODE at that base gives Incomplete once 11 of them are there. -/
def Obligations.OversizedFrameStaysIncomplete : Prop :=
  ∀ (s : State) (ver typ seq c1 c0 l1 l0 : Byte),
    s.config.fbCap.toNat < s.a0.toNat + 11 + (l1 ++ l0).toNat →
    Holds s.fb s.a0.toNat [0xAA#8, 0x55#8, ver, typ, seq, c1, c0, l1, l0] →
    s.fbLen.toNat ≤ s.config.fbCap.toNat → s.a0.toNat + 11 ≤ s.fbLen.toNat →
    ∃ t, exec .decodeFrame s = .next t ∧ t.result = .incomplete ∧ t.valid = false ∧
      t.fCons.toNat = 11 + (l1 ++ l0).toNat

/-- R152, R109: while VALID is 1 and the frame's bytes have been written, the host's CRC_BUF F_POFF - 7,
7 + F_LEN is in range, gives crc16 of version through payload, and leaves CRC equal to F_CRC exactly when the
frame's crc field is the checksum of its contents. For a frame built to the wire layout DECODE gives Ok and the
two are equal. -/
def Obligations.HostVerifiesBuiltFrame : Prop :=
  (∀ (s : State) (frame : List Byte),
    s.valid = true → ViewSound s → frame.length = 11 + s.fLen.toNat →
    Holds s.fb (s.fPoff.toNat - 9) frame →
    ∃ u, exec .crcBuf { s with a0 := s.fPoff - 7#32, a1 := 7#32 + s.fLen.setWidth 32 } = .next u ∧
      u.fault = s.fault ∧ u.valid = true ∧
      u.crc = crc16 ((frame.drop 2).take (7 + s.fLen.toNat)) ∧
      (u.crc = s.fCrc ↔
        frame.drop (9 + s.fLen.toNat) = toBytes16 (crc16 ((frame.drop 2).take (7 + s.fLen.toNat))))) ∧
  ∀ (s : State) (typ seq : Byte) (cmd : Half) (payload : List Byte),
    payload.length ≤ 65535 → s.a0.toNat + 11 + payload.length ≤ s.fbLen.toNat →
    Holds s.fb s.a0.toNat (wireFrame typ seq cmd payload) →
    ∃ t u, exec .decodeFrame s = .next t ∧ t.result = .ok ∧ t.valid = true ∧ t.fault = s.fault ∧
      t.fVer = protocolVersion ∧ t.fType = typ ∧ t.fSeq = seq ∧ t.fCmd = cmd ∧
      t.fLen.toNat = payload.length ∧
      exec .crcBuf { t with a0 := t.fPoff - 7#32, a1 := 7#32 + t.fLen.setWidth 32 } = .next u ∧
      u.fault = s.fault ∧ u.crc = crc16 (checkedPart typ seq cmd payload) ∧ u.crc = t.fCrc

/-! ### The register port, the buffer port and reset -/

/-- R25: the fields of STATUS, read at index 0x01; every other bit reads 0. -/
def Obligations.StatusWordLayout : Prop :=
  ∀ s : State,
    (regValue s 0x01#6).extractLsb' 0 4 =
      (match s.result with | .ok => 0#4 | .tooShort => 1#4 | .badSync => 2#4 | .incomplete => 3#4) ∧
    (regValue s 0x01#6).getLsbD 4 = s.valid ∧ (regValue s 0x01#6).extractLsb' 5 3 = 0#3 ∧
    (regValue s 0x01#6).getLsbD 8 = s.fault ∧ (regValue s 0x01#6).extractLsb' 9 3 = 0#3 ∧
    (regValue s 0x01#6).extractLsb' 12 4 =
      (match s.fcause with | none => 0#4 | some .illegalOp => 1#4 | some .range => 2#4) ∧
    (regValue s 0x01#6).extractLsb' 16 16 = 0#16

/-- R22, R23: what a read of each other index returns; bits a register does not use read 0, and so does every
reserved index. -/
def Obligations.RegisterMapReads : Prop :=
  ∀ s : State,
    regValue s 0x00#6 = s.cmd ∧ regValue s 0x02#6 = s.a0 ∧ regValue s 0x03#6 = s.a1 ∧
    regValue s 0x04#6 = 0#16 ++ s.crc ∧ regValue s 0x05#6 = s.cw ∧ regValue s 0x06#6 = s.fbLen ∧
    regValue s 0x07#6 = s.config.fbCap ∧ regValue s 0x08#6 = 0#24 ++ s.fVer ∧
    regValue s 0x09#6 = 0#24 ++ s.fType ∧ regValue s 0x0A#6 = 0#24 ++ s.fSeq ∧
    regValue s 0x0B#6 = 0#16 ++ s.fCmd ∧ regValue s 0x0C#6 = 0#16 ++ s.fLen ∧
    regValue s 0x0D#6 = s.fPoff ∧ regValue s 0x0E#6 = 0#16 ++ s.fCrc ∧ regValue s 0x0F#6 = s.fCons ∧
    regValue s 0x10#6 = (if s.fPt then 1#32 else 0#32) ∧
    ∀ r : RegIndex, 0x11 ≤ r.toNat → regValue s r = 0#32

/-- R23, R59: a register read gives the host the register's value and changes no state of the FCU. The queues are the model's own
(assumption 2). -/
def Obligations.RegisterReadChangesNothing : Prop :=
  ∀ (s : State) (r : RegIndex) (rest : List Access), s.pending = .regRd r :: rest →
    step s = .next { s with pending := rest, replies := s.replies ++ [.regData (regValue s r)] }

/-- R23, R29, R31: a write to A0, A1 or CW stores the value; a write to a read-only register (STATUS, CRC,
FB_CAP, F_VER to F_FLAGS) or to a reserved index changes nothing. -/
def Obligations.RegisterWritesStoreOrAreIgnored : Prop :=
  ∀ (s : State) (r : RegIndex) (v : Word) (rest : List Access), s.pending = .regWr r v :: rest →
    (r = 0x02#6 → step s = .next { s with pending := rest, a0 := v }) ∧
    (r = 0x03#6 → step s = .next { s with pending := rest, a1 := v }) ∧
    (r = 0x05#6 → step s = .next { s with pending := rest, cw := v }) ∧
    (r.toNat = 1 ∨ r.toNat = 4 ∨ 7 ≤ r.toNat → step s = .next { s with pending := rest })

/-- R32: a write of v to FB_LEN stores v and clears VALID when v <= FB_CAP; else it stores nothing and raises
Fault(RANGE). No FB byte changes either way (R54). -/
def Obligations.LengthWriteIsChecked : Prop :=
  ∀ (s : State) (v : Word) (rest : List Access), s.pending = .regWr 0x06#6 v :: rest →
    (v.toNat ≤ s.config.fbCap.toNat →
      step s = .next { s with pending := rest, fbLen := v, valid := false }) ∧
    (s.config.fbCap.toNat < v.toNat →
      step s = .next { s with
        pending := rest, fault := true, fcause := if s.fault then s.fcause else some .range })

/-- R51, R53: a buffer write below FB_CAP writes that byte and clears VALID, whatever FB_LEN is; at or above
FB_CAP it does nothing. -/
def Obligations.BufferWriteStoresBelowCapacity : Prop :=
  ∀ (s : State) (a : Word) (b : Byte) (rest : List Access), s.pending = .bufWr a b :: rest →
    (a.toNat < s.config.fbCap.toNat →
      ∃ t, step s = .next t ∧ t = { s with pending := rest, fb := t.fb, valid := false } ∧
        t.fb.read a.toNat = some b ∧ ∀ x, x ≠ a.toNat → t.fb.read x = s.fb.read x) ∧
    (s.config.fbCap.toNat ≤ a.toNat → step s = .next { s with pending := rest })

/-- R52, R53, R199: a buffer read returns the byte written there and changes no state; of a byte not written
since reset it returns a free byte; at or above FB_CAP it returns 0x00. That an unwritten byte draws a free byte is the
model's choice of the two in R199 (assumption 1). -/
def Obligations.BufferReadReturnsTheByte : Prop :=
  ∀ (s : State) (a : Word) (rest : List Access), s.pending = .bufRd a :: rest →
    (∀ b, a.toNat < s.config.fbCap.toNat → s.fb.read a.toNat = some b →
      step s = .next { s with pending := rest, replies := s.replies ++ [.bufData b] }) ∧
    (a.toNat < s.config.fbCap.toNat → s.fb.read a.toNat = none →
      step s = .next { s with
        pending := rest, draws := s.draws + 1
        replies := s.replies ++ [.bufData (Config.freeByte s.draws)] }) ∧
    (s.config.fbCap.toNat ≤ a.toNat →
      step s = .next { s with pending := rest, replies := s.replies ++ [.bufData 0x00#8] })

/-- R190, R191: the reset access sets every register to its reset value, whatever the state was; FB_CAP reads
its parameter, and no FB byte counts as written any more. That the host's queues stay as they are is the
model's choice (assumption 4). -/
def Obligations.ResetAccessSetsResetValues : Prop :=
  ∀ (s : State) (rest : List Access), s.pending = .reset :: rest →
    ∃ t, step s = .next t ∧ t.pending = rest ∧ t.replies = s.replies ∧ t.config = s.config ∧
      regValue t 0x04#6 = 0x0000FFFF#32 ∧ regValue t 0x07#6 = s.config.fbCap ∧
      (∀ r : RegIndex, r ≠ 0x04#6 → r ≠ 0x07#6 → regValue t r = 0#32) ∧ ∀ a, t.fb.read a = none

/-- R190, R7: the state after power-on reset. That the host's queues start empty is the model's choice
(assumption 4). -/
def Obligations.PowerOnState : Prop :=
  regValue State.reset 0x04#6 = 0x0000FFFF#32 ∧ regValue State.reset 0x07#6 = 65546#32 ∧
  (∀ r : RegIndex, r ≠ 0x04#6 → r ≠ 0x07#6 → regValue State.reset r = 0#32) ∧
  (∀ a, State.reset.fb.read a = none) ∧ State.reset.pending = [] ∧ State.reset.replies = []

/-! ### Rules about the whole machine -/

/-- The invariants hold after reset, for every legal configuration. -/
def Obligations.InvariantsHoldAtReset : Prop :=
  State.reset.Inv ∧ ViewSound State.reset ∧
  ∀ c : Config, c.wellFormed = true → (State.resetWith c).Inv ∧ ViewSound (State.resetWith c)

/-- R32, R39, R50, R170, R148, R142: every step keeps the invariant: FB_LEN <= FB_CAP, FB in canonical form and
inside its capacity, FAULT = 1 exactly when FCAUSE names a cause, PT as R148 classifies F_TYPE, and while
VALID = 1 the frame inside FB. -/
def Obligations.StepKeepsInvariant : Prop :=
  ∀ s t : State, s.Inv → step s = .next t → t.Inv

/-- R26: every step keeps what VALID = 1 means: the header and checksum bytes in FB are those the F_ registers
show. -/
def Obligations.StepKeepsValidViewSound : Prop :=
  ∀ s t : State, ViewSound s → step s = .next t → ViewSound t

/-- R177: no command and no access ever stops the machine. It is the model's choice in two points: a read of an
unwritten byte draws, where R199 recommends a fault (assumption 1), and a fault of the spec is a next state, as
deduced from R170 and R177 (assumption 8). -/
def Obligations.EveryStepCompletes : Prop :=
  (∀ (i : Instr) (s : State), ∃ t, exec i s = .next t) ∧ ∀ s : State, ∃ t, step s = .next t

/-- R60: each step performs exactly the next access in issue order, and a read gives exactly one reply, after
those before it; no other access gives one. The queues are the model's own
(assumption 2), and that a reset leaves them is its choice
(assumption 4). -/
def Obligations.AccessesRunInIssueOrder : Prop :=
  ∀ (s t : State) (a : Access) (rest : List Access), Next s a rest → step s = .next t →
    t.pending = rest ∧
    ((∃ r, a = .regRd r) → ∃ v, t.replies = s.replies ++ [.regData v]) ∧
    ((∃ x, a = .bufRd x) → ∃ b, t.replies = s.replies ++ [.bufData b]) ∧
    ((∀ r, a ≠ .regRd r) → (∀ x, a ≠ .bufRd x) → t.replies = s.replies)

/-- R28, R176: FAULT stays set and FCAUSE keeps the first cause at every step but a reset access. -/
def Obligations.FaultIsStickyUntilReset : Prop :=
  ∀ s t : State, s.fault = true → (∀ rest, ¬Next s .reset rest) → step s = .next t →
    t.fault = true ∧ t.fcause = s.fcause

/-- R171: an access raises a fault exactly when the table of causes says so; "No other access faults". FCAUSE
then holds the code of that cause, and what the table calls recorded stands: the illegal value in CMD, A0, A1
and FB_LEN as they were. -/
def Obligations.FaultsAreExactlyTheTable : Prop :=
  ∀ (s t : State) (a : Access) (rest : List Access), Next s a rest → a ≠ .reset → s.fault = false →
    step s = .next t →
    (t.fault = true ↔ ∃ c, Raises s a c) ∧
    ∀ c, Raises s a c →
      t.fcause = some c ∧
      (regValue t 0x01#6).extractLsb' 12 4 = (match c with | .illegalOp => 1#4 | .range => 2#4) ∧
      t.a0 = s.a0 ∧ t.a1 = s.a1 ∧ t.fbLen = s.fbLen ∧ ∀ v, a = .regWr 0x00#6 v → t.cmd = v

/-- R170: the fault is precise: after an access that raises one, the state is the state before it except for
CMD (when the access was a CMD write), FAULT and FCAUSE. -/
def Obligations.FaultsArePrecise : Prop :=
  ∀ (s : State) (a : Access) (rest : List Access) (c : FaultCause), Next s a rest → Raises s a c →
    step s = .next { s with
      pending := rest
      cmd := match a with
        | .regWr r v => if r = 0x00#6 then v else s.cmd
        | .regRd _ => s.cmd
        | .bufWr _ _ => s.cmd
        | .bufRd _ => s.cmd
        | .reset => s.cmd
      fault := true, fcause := if s.fault then s.fcause else some c }

/-- R26: VALID is set only by a DECODE whose result is Ok, cleared by a DECODE with another result and by an
accepted buffer write, store, FB_LEN write or reset, and changed by nothing else, faults included. -/
def Obligations.ValidChangesOnlyByTheRule : Prop :=
  ∀ (s t : State) (a : Access) (rest : List Access), Next s a rest → step s = .next t →
    ((∃ c, Raises s a c) → t.valid = s.valid) ∧
    ((¬∃ c, Raises s a c) →
      (a = issue .decodeFrame → (t.valid = true ↔ t.result = .ok)) ∧
      (Changes s a → t.valid = false) ∧
      (a ≠ issue .decodeFrame → ¬Changes s a → t.valid = s.valid))

/-- R24, R29, R30, R31, R32: which accesses can write CMD, A0, A1, CRC, CW and FB_LEN. -/
def Obligations.OperandRegistersHaveTheirWriters : Prop :=
  ∀ (s t : State) (a : Access) (rest : List Access), Next s a rest → step s = .next t → a ≠ .reset →
    (t.cmd ≠ s.cmd → ∃ v, a = .regWr 0x00#6 v ∧ t.cmd = v) ∧
    (t.a0 ≠ s.a0 → ∃ v, a = .regWr 0x02#6 v ∧ t.a0 = v) ∧
    (t.a1 ≠ s.a1 → ∃ v, a = .regWr 0x03#6 v ∧ t.a1 = v) ∧
    (t.crc ≠ s.crc → a = issue .crcInit ∨ a = issue .crcByte ∨ a = issue .crcBuf ∨ a = issue .crcAcc) ∧
    (t.cw ≠ s.cw → (∃ v, a = .regWr 0x05#6 v ∧ t.cw = v) ∨ a = issue .ldU16 ∨ a = issue .ldI16 ∨
      a = issue .ldF32) ∧
    (t.fbLen ≠ s.fbLen → ∃ v, a = .regWr 0x06#6 v ∧ t.fbLen = v)

/-- R27, R34, R35, R36, R33: only DECODE and reset write RESULT and the F_ registers; nothing writes FB_CAP. -/
def Obligations.ResultRegistersHaveOneWriter : Prop :=
  ∀ (s t : State) (a : Access) (rest : List Access), Next s a rest → step s = .next t →
    t.config = s.config ∧
    (a ≠ issue .decodeFrame → a ≠ .reset →
      t.result = s.result ∧ t.fVer = s.fVer ∧ t.fType = s.fType ∧ t.fSeq = s.fSeq ∧ t.fCmd = s.fCmd ∧
      t.fLen = s.fLen ∧ t.fPoff = s.fPoff ∧ t.fCrc = s.fCrc ∧ t.fCons = s.fCons ∧ t.fPt = s.fPt)

/-- R54, R50, R51: a byte of FB keeps its value until a buffer write to its address below FB_CAP, a store
command that covers it below FB_LEN, or a reset. -/
def Obligations.BytesChangeOnlyByWrites : Prop :=
  ∀ (s t : State) (a : Access) (rest : List Access) (x : Nat), Next s a rest → step s = .next t →
    t.fb.read x ≠ s.fb.read x →
    (∃ (p : Word) (b : Byte), a = .bufWr p b ∧ p.toNat = x ∧ x < s.config.fbCap.toNat) ∨
    (∃ (i : Instr) (n : Nat), a = issue i ∧ (i = .stU16 ∨ i = .stI16 ∨ i = .stF32) ∧
      rangeOf s i = some n ∧ s.a0.toNat ≤ x ∧ x < s.a0.toNat + n ∧ x < s.fbLen.toNat) ∨
    a = .reset

/-- R50, R32: commands reach FB addresses 0 to FB_LEN - 1 only: no command learns or changes a byte at or above
FB_LEN. Two states that agree below FB_LEN run alike in every register, and still agree below FB_LEN
afterwards; each keeps its own bytes above. Below FB_LEN an unwritten byte
draws the same free byte in both, the model's choice of the two in R199 (assumption 1). -/
def Obligations.CommandsReachOnlyBelowLength : Prop :=
  ∀ (i : Instr) (s : State) (fb : Memory), (∀ a, a < s.fbLen.toNat → fb.read a = s.fb.read a) →
    ∃ (t : State) (fb' : Memory),
      exec i s = .next t ∧ exec i { s with fb := fb } = .next { t with fb := fb' } ∧
      (∀ a, a < s.fbLen.toNat → fb'.read a = t.fb.read a) ∧
      ∀ a, s.fbLen.toNat ≤ a → fb'.read a = fb.read a ∧ t.fb.read a = s.fb.read a

/-- R147: group and id of a command code are its high and its low byte, and on the FCU F_CMD[15:8] and
F_CMD[7:0]. -/
def Obligations.GroupAndIdAreTheCmdBytes : Prop :=
  (∀ group id : Byte, cmdGroup (group ++ id) = group ∧ cmdId (group ++ id) = id) ∧
  ∀ s : State, (regValue s 0x0B#6).extractLsb' 8 8 = cmdGroup s.fCmd ∧
    (regValue s 0x0B#6).extractLsb' 0 8 = cmdId s.fCmd

/-- R83, every row: a pseudo-instruction's accesses, performed in order, write its operands (host expressions
with values x and y, R82) to their registers and perform its command on them; a bare mnemonic takes A0, A1 and
CW as they stand; `wbs` writes its bytes at x, x + 1, …; `setlen` writes FB_LEN. The host's queue and notation
are the model's own (assumptions 2 and 9), and an unwritten byte draws (assumption 1). -/
def Obligations.PseudoInstructionsExpand : Prop :=
  ∀ (s : State) (vars : HostVars) (e f : HostExpr) (x y : Word),
    e.eval vars = some x → f.eval vars = some y →
    (∀ i : Instr, (Pseudo.bare i).Performs i vars s s) ∧
    (Pseudo.crcByte e).Performs .crcByte vars s { s with a0 := x } ∧
    (Pseudo.crcBuf e f).Performs .crcBuf vars s { s with a0 := x, a1 := y } ∧
    (Pseudo.crcAcc e f).Performs .crcAcc vars s { s with a0 := x, a1 := y } ∧
    (Pseudo.ldU16 e).Performs .ldU16 vars s { s with a0 := x } ∧
    (Pseudo.ldI16 e).Performs .ldI16 vars s { s with a0 := x } ∧
    (Pseudo.ldF32 e).Performs .ldF32 vars s { s with a0 := x } ∧
    (Pseudo.stU16 e none).Performs .stU16 vars s { s with a0 := x } ∧
    (Pseudo.stU16 e (some f)).Performs .stU16 vars s { s with a0 := x, cw := y } ∧
    (Pseudo.stI16 e none).Performs .stI16 vars s { s with a0 := x } ∧
    (Pseudo.stI16 e (some f)).Performs .stI16 vars s { s with a0 := x, cw := y } ∧
    (Pseudo.stF32 e none).Performs .stF32 vars s { s with a0 := x } ∧
    (Pseudo.stF32 e (some f)).Performs .stF32 vars s { s with a0 := x, cw := y } ∧
    (Pseudo.decodeFrame e).Performs .decodeFrame vars s { s with a0 := x } ∧
    (∀ bs : List Byte, runLines (Pseudo.wbs e bs).expand ⟨vars, s⟩ =
      some ⟨vars, bs.zipIdx.foldl (fun t p => bufWrite (x + BitVec.ofNat 32 p.2) p.1 t) s⟩) ∧
    runLines (Pseudo.setlen e).expand ⟨vars, s⟩ = some ⟨vars, writeFbLen x s⟩
end

