-- ==== Sys2Proof/Laws/Memory.lean ====
section
/-! SUPPORT. The laws of the frame buffer as data: read after write, the canonical form is kept, and a memory
in canonical form is determined by its reads. -/

namespace Sys2Proof.Machine

@[simp] theorem Memory.read_nil (a : Nat) : Memory.read [] a = none := rfl

theorem Memory.read_cons (c : Host.Cell) (m : Memory) (a : Nat) :
    Memory.read (c :: m) a = if a = c.1 then some c.2 else Memory.read m a := rfl

/-- Reading a byte just written gives it; every other byte reads as before. -/
theorem Memory.read_write (m : Memory) (a x : Nat) (b : Byte) :
    (m.write a b).read x = if x = a then some b else m.read x := by
  induction m with
  | nil => simp [Memory.write, Memory.read_cons]
  | cons c m ih =>
    obtain ⟨k, y⟩ := c
    simp only [Memory.write]
    split
    · simp [Memory.read_cons]
    · split
      · subst_vars
        simp only [Memory.read_cons]
        split <;> rfl
      · rename_i hne
        simp only [Memory.read_cons, ih]
        by_cases hx : x = k
        · simp [hx, Ne.symm hne]
        · simp [hx]

/-- The bytes outside those written read as before, and the i-th written byte reads as itself. -/
theorem Memory.read_writeBytes (m : Memory) (a x : Nat) (bs : List Byte) :
    (m.writeBytes a bs).read x =
      if h : a ≤ x ∧ x < a + bs.length then some (bs[x - a]'(by omega)) else m.read x := by
  induction bs generalizing m a with
  | nil => simp [Memory.writeBytes]
  | cons b bs ih =>
    simp only [Memory.writeBytes, ih, Memory.read_write, List.length_cons]
    by_cases hx : x = a
    · subst hx
      simp
    · by_cases h : a + 1 ≤ x ∧ x < a + 1 + bs.length
      · have h' : a ≤ x ∧ x < a + (bs.length + 1) := by omega
        obtain ⟨k, rfl⟩ : ∃ k, x = a + 1 + k := ⟨x - (a + 1), by omega⟩
        simp only [h, h', and_self, dite_true]
        simp [show a + 1 + k - a = k + 1 by omega]
      · have h' : ¬(a ≤ x ∧ x < a + (bs.length + 1)) := by omega
        rw [dif_neg h, dif_neg h', if_neg hx]

/-- The addresses listed after a write are the old ones and the written one. -/
theorem Memory.mem_write {m : Memory} {a : Nat} {b : Byte} {c : Host.Cell}
    (h : c ∈ m.write a b) : c = (a, b) ∨ c ∈ m := by
  induction m with
  | nil => simpa [Memory.write] using h
  | cons d m ih =>
    simp only [Memory.write] at h
    split at h
    · simpa using h
    · split at h
      · simp only [List.mem_cons] at h ⊢; tauto
      · simp only [List.mem_cons] at h ⊢
        rcases h with h | h
        · tauto
        · rcases ih h with h | h <;> tauto

/-- A write keeps the canonical form. -/
theorem Memory.write_wf {m : Memory} (hm : m.wf) (a : Nat) (b : Byte) : (m.write a b).wf := by
  induction m with
  | nil => simp [Memory.write, Memory.wf]
  | cons d m ih =>
    obtain ⟨hd, hm'⟩ := List.pairwise_cons.mp hm
    simp only [Memory.write]
    split
    · rename_i hlt
      refine List.pairwise_cons.mpr ⟨?_, hm⟩
      intro c hc
      rcases List.mem_cons.mp hc with rfl | hc
      · exact hlt
      · exact hlt.trans (hd c hc)
    · split
      · rename_i heq
        exact List.pairwise_cons.mpr ⟨fun c hc => heq ▸ hd c hc, hm'⟩
      · refine List.pairwise_cons.mpr ⟨?_, ih hm'⟩
        intro c hc
        rcases Memory.mem_write hc with rfl | hc
        · simp only; omega
        · exact hd c hc

/-- A write inside the capacity keeps every listed byte inside it. -/
theorem Memory.write_below {m : Memory} {cap : Nat} (hm : m.below cap) {a : Nat} (ha : a < cap)
    (b : Byte) : (m.write a b).below cap := by
  intro c hc
  rcases Memory.mem_write hc with rfl | hc
  · exact ha
  · exact hm c hc

/-- Writing several bytes keeps the canonical form. -/
theorem Memory.writeBytes_wf {m : Memory} (hm : m.wf) (a : Nat) (bs : List Byte) :
    (m.writeBytes a bs).wf := by
  induction bs generalizing m a with
  | nil => exact hm
  | cons b bs ih => exact ih (Memory.write_wf hm a b) (a + 1)

/-- Writing several bytes inside the capacity keeps every listed byte inside it. -/
theorem Memory.writeBytes_below {m : Memory} {cap : Nat} (hm : m.below cap) (a : Nat)
    (bs : List Byte) (h : a + bs.length ≤ cap) : (m.writeBytes a bs).below cap := by
  induction bs generalizing m a with
  | nil => exact hm
  | cons b bs ih =>
    simp only [List.length_cons] at h
    exact ih (Memory.write_below hm (by omega) b) (a + 1) (by omega)

/-- A byte that reads at `a` is listed there. -/
theorem Memory.mem_of_read {m : Memory} {a : Nat} {b : Byte} (h : m.read a = some b) : (a, b) ∈ m := by
  induction m with
  | nil => simp at h
  | cons c m ih =>
    rw [Memory.read_cons] at h
    split at h
    · rename_i ha
      obtain rfl := Option.some.inj h
      simp [ha]
    · exact List.mem_cons_of_mem _ (ih h)

/-- Nothing reads below the first address of a canonical memory. -/
theorem Memory.read_eq_none_of_lt {c : Host.Cell} {m : Memory} (h : Memory.wf (c :: m)) {a : Nat}
    (ha : a ≤ c.1) : m.read a = none := by
  cases hr : m.read a with
  | none => rfl
  | some b =>
    have := (List.pairwise_cons.mp h).1 _ (Memory.mem_of_read hr)
    simp only at this
    omega

/-- Equal memories are equal data: two canonical memories with the same reads are the same list. -/
theorem Memory.ext_of_read {m n : Memory} (hm : m.wf) (hn : n.wf) (h : ∀ a, m.read a = n.read a) :
    m = n := by
  induction m generalizing n with
  | nil =>
    cases n with
    | nil => rfl
    | cons d n => simpa [Memory.read_cons] using h d.1
  | cons c m ih =>
    cases n with
    | nil => simpa [Memory.read_cons] using h c.1
    | cons d n =>
      have hc := h c.1
      have hd := h d.1
      simp only [Memory.read_cons, if_true] at hc hd
      have key : c.1 = d.1 := by
        rcases Nat.lt_trichotomy c.1 d.1 with hlt | heq | hgt
        · rw [if_neg (by omega), Memory.read_eq_none_of_lt hn hlt.le] at hc
          simp at hc
        · exact heq
        · rw [if_neg (by omega), Memory.read_eq_none_of_lt hm hgt.le] at hd
          simp at hd
      have hcd : c = d := by
        rw [if_pos key] at hc
        exact Prod.ext key (Option.some.inj hc)
      subst hcd
      congr 1
      refine ih (List.pairwise_cons.mp hm).2 (List.pairwise_cons.mp hn).2 fun a => ?_
      by_cases ha : a = c.1
      · subst ha
        rw [Memory.read_eq_none_of_lt hm le_rfl, Memory.read_eq_none_of_lt hn le_rfl]
      · have := h a
        simpa [Memory.read_cons, ha] using this

end Sys2Proof.Machine
end

