-- ==== Sys2Proof/Laws/Read.lean ====
section
/-! SUPPORT. What reading bytes does, said once: `readBytes` in closed form. -/

namespace Sys2Proof.Machine

variable (fb : Memory) (draws a n : Nat)

@[simp] theorem unwritten_zero : unwritten fb a 0 = 0 := rfl

theorem unwritten_succ :
    unwritten fb a (n + 1) = unwritten fb a n + if (fb.read (a + n)).isNone then 1 else 0 := by
  simp [unwritten, List.range_succ, List.countP_append]

/-- The first byte counted apart. -/
theorem unwritten_succ' :
    unwritten fb a (n + 1) = (if (fb.read a).isNone then 1 else 0) + unwritten fb (a + 1) n := by
  induction n with
  | zero => simp [unwritten_succ]
  | succ n ih =>
    rw [unwritten_succ, ih, unwritten_succ fb (a + 1) n, show a + 1 + n = a + (n + 1) by omega]
    omega

theorem unwritten_add (m : Nat) :
    unwritten fb a (n + m) = unwritten fb a n + unwritten fb (a + n) m := by
  induction m with
  | zero => simp
  | succ m ih =>
    rw [← Nat.add_assoc, unwritten_succ, ih, unwritten_succ, Nat.add_assoc a n m]
    omega

@[simp] theorem bytesRead_length : (bytesRead fb draws a n).length = n := by simp [bytesRead]

@[simp] theorem bytesRead_getElem (i : Nat) (h : i < (bytesRead fb draws a n).length) :
    (bytesRead fb draws a n)[i] = byteRead fb draws a i := by simp [bytesRead]

theorem byteRead_zero : byteRead fb draws a 0 = (readByte fb draws a).1 := by
  simp only [byteRead, readByte, unwritten_zero, Nat.add_zero]
  cases fb.read a <;> rfl

theorem readByte_draws : (readByte fb draws a).2 = draws + unwritten fb a 1 := by
  rw [show (1 : Nat) = 0 + 1 from rfl, unwritten_succ]
  simp only [readByte, Nat.add_zero]
  cases fb.read a <;> rfl

theorem byteRead_succ (i : Nat) :
    byteRead fb draws a (i + 1) = byteRead fb (readByte fb draws a).2 (a + 1) i := by
  simp only [byteRead, readByte_draws, show a + 1 + i = a + (i + 1) by omega]
  rw [show i + 1 = 1 + i by omega, unwritten_add, Nat.add_assoc]

/-- The spec of `readBytes`: each byte is the written one or a free byte of its own, and one free byte is
drawn for each byte not written since reset (R199). -/
theorem readBytes_eq :
    readBytes fb draws a n = (bytesRead fb draws a n, draws + unwritten fb a n) := by
  induction n generalizing draws a with
  | zero => rfl
  | succ n ih =>
    simp only [readBytes, ih]
    congr 1
    · simp only [bytesRead, List.range_succ_eq_map, List.map_cons, List.map_map, byteRead_zero]
      congr 1
      exact List.map_congr_left fun i _ => (byteRead_succ fb draws a i).symm
    · rw [readByte_draws, show n + 1 = 1 + n by omega, unwritten_add]
      omega

theorem fbBytes_eq (s : State) : fbBytes s a n = bytesRead s.fb s.draws a n := by
  simp [fbBytes, readBytes_eq]

theorem fbDraws_eq (s : State) : fbDraws s a n = s.draws + unwritten s.fb a n := by
  simp [fbDraws, readBytes_eq]

/-- A byte that has been written reads as itself, whatever has been drawn. -/
theorem byteRead_of_read {i : Nat} {b : Byte} (h : fb.read (a + i) = some b) :
    byteRead fb draws a i = b := by
  simp [byteRead, h]

/-- Where every byte has been written, reading gives those bytes and draws nothing. -/
theorem bytesRead_of_holds {bs : List Byte} (h : Holds fb a bs) : bytesRead fb draws a bs.length = bs := by
  refine List.ext_getElem (by simp) fun i h₁ h₂ => ?_
  rw [bytesRead_getElem]
  exact byteRead_of_read fb draws a (h i h₂)

theorem unwritten_of_holds {bs : List Byte} (h : Holds fb a bs) : unwritten fb a bs.length = 0 := by
  simp only [unwritten, List.countP_eq_zero, List.mem_range]
  intro i hi
  simp [h i hi]

/-- Reads agree with every byte that has been written. -/
theorem agrees_bytesRead : Agrees fb a (bytesRead fb draws a n) := by
  intro i h b hb
  rw [bytesRead_getElem, byteRead_of_read fb draws a hb]

end Sys2Proof.Machine
end

