-- ==== Sys2Proof/Laws/State.lean ====
section
/-! SUPPORT. For each shared update of the state, what every field reads after it: one simp lemma per update,
a conjunct per field, true by rfl, so that no later proof unfolds a record update. -/

namespace Sys2Proof.Machine

variable (s : State)

@[simp] theorem clearValid_fields :
    (clearValid s).cmd = s.cmd ∧ (clearValid s).result = s.result ∧ (clearValid s).valid = false ∧
    (clearValid s).fault = s.fault ∧ (clearValid s).fcause = s.fcause ∧ (clearValid s).a0 = s.a0 ∧
    (clearValid s).a1 = s.a1 ∧ (clearValid s).crc = s.crc ∧ (clearValid s).cw = s.cw ∧
    (clearValid s).fbLen = s.fbLen ∧ (clearValid s).fVer = s.fVer ∧ (clearValid s).fType = s.fType ∧
    (clearValid s).fSeq = s.fSeq ∧ (clearValid s).fCmd = s.fCmd ∧ (clearValid s).fLen = s.fLen ∧
    (clearValid s).fPoff = s.fPoff ∧ (clearValid s).fCrc = s.fCrc ∧ (clearValid s).fCons = s.fCons ∧
    (clearValid s).fPt = s.fPt ∧ (clearValid s).fb = s.fb ∧ (clearValid s).config = s.config ∧
    (clearValid s).draws = s.draws ∧ (clearValid s).pending = s.pending ∧
    (clearValid s).replies = s.replies := by
  repeat' constructor

@[simp] theorem raiseFault_fields (c : FaultCause) :
    (raiseFault c s).cmd = s.cmd ∧ (raiseFault c s).result = s.result ∧ (raiseFault c s).valid = s.valid ∧
    (raiseFault c s).fault = true ∧ (raiseFault c s).fcause = (if s.fault then s.fcause else some c) ∧
    (raiseFault c s).a0 = s.a0 ∧ (raiseFault c s).a1 = s.a1 ∧ (raiseFault c s).crc = s.crc ∧
    (raiseFault c s).cw = s.cw ∧ (raiseFault c s).fbLen = s.fbLen ∧ (raiseFault c s).fVer = s.fVer ∧
    (raiseFault c s).fType = s.fType ∧ (raiseFault c s).fSeq = s.fSeq ∧ (raiseFault c s).fCmd = s.fCmd ∧
    (raiseFault c s).fLen = s.fLen ∧ (raiseFault c s).fPoff = s.fPoff ∧ (raiseFault c s).fCrc = s.fCrc ∧
    (raiseFault c s).fCons = s.fCons ∧ (raiseFault c s).fPt = s.fPt ∧ (raiseFault c s).fb = s.fb ∧
    (raiseFault c s).config = s.config ∧ (raiseFault c s).draws = s.draws ∧
    (raiseFault c s).pending = s.pending ∧ (raiseFault c s).replies = s.replies := by
  repeat' constructor

@[simp] theorem memWrite_fields (a : Nat) (bs : List Byte) :
    (memWrite s a bs).cmd = s.cmd ∧ (memWrite s a bs).result = s.result ∧ (memWrite s a bs).valid = false ∧
    (memWrite s a bs).fault = s.fault ∧ (memWrite s a bs).fcause = s.fcause ∧ (memWrite s a bs).a0 = s.a0 ∧
    (memWrite s a bs).a1 = s.a1 ∧ (memWrite s a bs).crc = s.crc ∧ (memWrite s a bs).cw = s.cw ∧
    (memWrite s a bs).fbLen = s.fbLen ∧ (memWrite s a bs).fVer = s.fVer ∧
    (memWrite s a bs).fType = s.fType ∧ (memWrite s a bs).fSeq = s.fSeq ∧ (memWrite s a bs).fCmd = s.fCmd ∧
    (memWrite s a bs).fLen = s.fLen ∧ (memWrite s a bs).fPoff = s.fPoff ∧ (memWrite s a bs).fCrc = s.fCrc ∧
    (memWrite s a bs).fCons = s.fCons ∧ (memWrite s a bs).fPt = s.fPt ∧
    (memWrite s a bs).fb = s.fb.writeBytes a bs ∧ (memWrite s a bs).config = s.config ∧
    (memWrite s a bs).draws = s.draws ∧ (memWrite s a bs).pending = s.pending ∧
    (memWrite s a bs).replies = s.replies := by
  repeat' constructor

@[simp] theorem reply_fields (d : Reply) :
    (reply d s).cmd = s.cmd ∧ (reply d s).result = s.result ∧ (reply d s).valid = s.valid ∧
    (reply d s).fault = s.fault ∧ (reply d s).fcause = s.fcause ∧ (reply d s).a0 = s.a0 ∧
    (reply d s).a1 = s.a1 ∧ (reply d s).crc = s.crc ∧ (reply d s).cw = s.cw ∧ (reply d s).fbLen = s.fbLen ∧
    (reply d s).fVer = s.fVer ∧ (reply d s).fType = s.fType ∧ (reply d s).fSeq = s.fSeq ∧
    (reply d s).fCmd = s.fCmd ∧ (reply d s).fLen = s.fLen ∧ (reply d s).fPoff = s.fPoff ∧
    (reply d s).fCrc = s.fCrc ∧ (reply d s).fCons = s.fCons ∧ (reply d s).fPt = s.fPt ∧
    (reply d s).fb = s.fb ∧ (reply d s).config = s.config ∧ (reply d s).draws = s.draws ∧
    (reply d s).pending = s.pending ∧ (reply d s).replies = s.replies ++ [d] := by
  repeat' constructor

@[simp] theorem zeroFields_fields :
    (zeroFields s).cmd = s.cmd ∧ (zeroFields s).result = s.result ∧ (zeroFields s).valid = s.valid ∧
    (zeroFields s).fault = s.fault ∧ (zeroFields s).fcause = s.fcause ∧ (zeroFields s).a0 = s.a0 ∧
    (zeroFields s).a1 = s.a1 ∧ (zeroFields s).crc = s.crc ∧ (zeroFields s).cw = s.cw ∧
    (zeroFields s).fbLen = s.fbLen ∧ (zeroFields s).fVer = 0#8 ∧ (zeroFields s).fType = 0#8 ∧
    (zeroFields s).fSeq = 0#8 ∧ (zeroFields s).fCmd = 0#16 ∧ (zeroFields s).fLen = 0#16 ∧
    (zeroFields s).fPoff = 0#32 ∧ (zeroFields s).fCrc = 0#16 ∧ (zeroFields s).fCons = 0#32 ∧
    (zeroFields s).fPt = false ∧ (zeroFields s).fb = s.fb ∧ (zeroFields s).config = s.config ∧
    (zeroFields s).draws = s.draws ∧ (zeroFields s).pending = s.pending ∧
    (zeroFields s).replies = s.replies := by
  repeat' constructor

@[simp] theorem headerFields_fields (base : Nat) (h : Header) (crc : Half) :
    (headerFields base h crc s).cmd = s.cmd ∧ (headerFields base h crc s).result = s.result ∧
    (headerFields base h crc s).valid = s.valid ∧ (headerFields base h crc s).fault = s.fault ∧
    (headerFields base h crc s).fcause = s.fcause ∧ (headerFields base h crc s).a0 = s.a0 ∧
    (headerFields base h crc s).a1 = s.a1 ∧ (headerFields base h crc s).crc = s.crc ∧
    (headerFields base h crc s).cw = s.cw ∧ (headerFields base h crc s).fbLen = s.fbLen ∧
    (headerFields base h crc s).fVer = h.ver ∧ (headerFields base h crc s).fType = h.typ ∧
    (headerFields base h crc s).fSeq = h.seq ∧ (headerFields base h crc s).fCmd = h.cmd ∧
    (headerFields base h crc s).fLen = h.len ∧
    (headerFields base h crc s).fPoff = BitVec.ofNat 32 (base + headerSize) ∧
    (headerFields base h crc s).fCrc = crc ∧
    (headerFields base h crc s).fCons = BitVec.ofNat 32 h.frameLen ∧
    (headerFields base h crc s).fPt = isPassthrough h.typ ∧ (headerFields base h crc s).fb = s.fb ∧
    (headerFields base h crc s).config = s.config ∧ (headerFields base h crc s).draws = s.draws ∧
    (headerFields base h crc s).pending = s.pending ∧ (headerFields base h crc s).replies = s.replies := by
  repeat' constructor

@[simp] theorem hostReset_fields :
    (hostReset s).cmd = 0#32 ∧ (hostReset s).result = .ok ∧ (hostReset s).valid = false ∧
    (hostReset s).fault = false ∧ (hostReset s).fcause = none ∧ (hostReset s).a0 = 0#32 ∧
    (hostReset s).a1 = 0#32 ∧ (hostReset s).crc = crcInitial ∧ (hostReset s).cw = 0#32 ∧
    (hostReset s).fbLen = 0#32 ∧ (hostReset s).fVer = 0#8 ∧ (hostReset s).fType = 0#8 ∧
    (hostReset s).fSeq = 0#8 ∧ (hostReset s).fCmd = 0#16 ∧ (hostReset s).fLen = 0#16 ∧
    (hostReset s).fPoff = 0#32 ∧ (hostReset s).fCrc = 0#16 ∧ (hostReset s).fCons = 0#32 ∧
    (hostReset s).fPt = false ∧ (hostReset s).fb = [] ∧ (hostReset s).config = s.config ∧
    (hostReset s).draws = s.draws ∧ (hostReset s).pending = s.pending ∧
    (hostReset s).replies = s.replies := by
  repeat' constructor

@[simp] theorem withFetchWord_fields (nbits w : Nat) :
    (s.withFetchWord nbits w).cmd = s.cmd ∧ (s.withFetchWord nbits w).result = s.result ∧
    (s.withFetchWord nbits w).valid = s.valid ∧ (s.withFetchWord nbits w).fault = s.fault ∧
    (s.withFetchWord nbits w).fcause = s.fcause ∧ (s.withFetchWord nbits w).a0 = s.a0 ∧
    (s.withFetchWord nbits w).a1 = s.a1 ∧ (s.withFetchWord nbits w).crc = s.crc ∧
    (s.withFetchWord nbits w).cw = s.cw ∧ (s.withFetchWord nbits w).fbLen = s.fbLen ∧
    (s.withFetchWord nbits w).fVer = s.fVer ∧ (s.withFetchWord nbits w).fType = s.fType ∧
    (s.withFetchWord nbits w).fSeq = s.fSeq ∧ (s.withFetchWord nbits w).fCmd = s.fCmd ∧
    (s.withFetchWord nbits w).fLen = s.fLen ∧ (s.withFetchWord nbits w).fPoff = s.fPoff ∧
    (s.withFetchWord nbits w).fCrc = s.fCrc ∧ (s.withFetchWord nbits w).fCons = s.fCons ∧
    (s.withFetchWord nbits w).fPt = s.fPt ∧ (s.withFetchWord nbits w).fb = s.fb ∧
    (s.withFetchWord nbits w).config = s.config ∧ (s.withFetchWord nbits w).draws = s.draws ∧
    (s.withFetchWord nbits w).pending = .regWr RegName.cmd.index (BitVec.ofNat 32 (w % 2 ^ nbits)) :: s.pending ∧
    (s.withFetchWord nbits w).replies = s.replies := by
  repeat' constructor

/-- R191: "Power-on applies the same reset": the reset access gives the power-on state of the same FCU, with
the model's own fields kept. -/
theorem hostReset_eq :
    hostReset s =
      { State.resetWith s.config with draws := s.draws, pending := s.pending, replies := s.replies } := rfl

/-- STATUS, CW and the other registers of the power-on state (R190). -/
@[simp] theorem reset_fields :
    State.reset.valid = false ∧ State.reset.fault = false ∧ State.reset.fcause = none ∧
    State.reset.fbLen = 0#32 ∧ State.reset.fb = [] ∧ State.reset.pending = [] ∧
    State.reset.crc = crcInitial ∧ State.reset.config = Config.default := by
  repeat' constructor

end Sys2Proof.Machine
end

