-- ==== Sys2Proof/Laws/Machine.lean ====
section
/-! SUPPORT. One lemma per shared operation saying what it can do, and the inversion of `exec`,
`performAccess` and `step` that whole-machine claims are derived from. -/

namespace Sys2Proof.Machine

/-! ### The range check -/

@[simp] theorem operandOffset_eq (s : State) : operandOffset s = s.a0.toNat := rfl

@[simp] theorem operandCount_eq (s : State) : operandCount s = s.a1.toNat := rfl

theorem guardRange_of_le {s t : State} {off n : Nat} (h : off + n ≤ s.fbLen.toNat) :
    guardRange s off n t = .next t := by
  simp [guardRange, rangeOK, h]

theorem guardRange_of_lt {s t : State} {off n : Nat} (h : s.fbLen.toNat < off + n) :
    guardRange s off n t = .next (raiseFault .range s) := by
  simp [guardRange, rangeOK, show ¬(off + n ≤ s.fbLen.toNat) by omega]

/-! ### DECODE -/

/-- What recording a parse leaves alone: every register but STATUS and the F_ registers. -/
@[simp] theorem recordParse_fields (base : Nat) (p : Parse) (s : State) :
    (recordParse base p s).cmd = s.cmd ∧ (recordParse base p s).fault = s.fault ∧
    (recordParse base p s).fcause = s.fcause ∧ (recordParse base p s).a0 = s.a0 ∧
    (recordParse base p s).a1 = s.a1 ∧ (recordParse base p s).crc = s.crc ∧
    (recordParse base p s).cw = s.cw ∧ (recordParse base p s).fbLen = s.fbLen ∧
    (recordParse base p s).fb = s.fb ∧ (recordParse base p s).config = s.config ∧
    (recordParse base p s).draws = s.draws ∧ (recordParse base p s).pending = s.pending ∧
    (recordParse base p s).replies = s.replies := by
  cases p <;> repeat' constructor

/-- VALID after a recorded parse is 1 exactly when its result is Ok (R26, R142 to R144). -/
theorem recordParse_valid (base : Nat) (p : Parse) (s : State) :
    (recordParse base p s).valid = decide ((recordParse base p s).result = .ok) := by
  cases p <;> rfl

@[simp] theorem decodeAt_fields (s : State) (base : Nat) :
    (decodeAt s base).cmd = s.cmd ∧ (decodeAt s base).fault = s.fault ∧
    (decodeAt s base).fcause = s.fcause ∧ (decodeAt s base).a0 = s.a0 ∧
    (decodeAt s base).a1 = s.a1 ∧ (decodeAt s base).crc = s.crc ∧
    (decodeAt s base).cw = s.cw ∧ (decodeAt s base).fbLen = s.fbLen ∧
    (decodeAt s base).fb = s.fb ∧ (decodeAt s base).config = s.config ∧
    (decodeAt s base).pending = s.pending ∧ (decodeAt s base).replies = s.replies := by
  simp [decodeAt]

/-- The seven header bytes after the sync bytes continue the same run of reads. -/
theorem byteRead_add (fb : Memory) (draws a k i : Nat) :
    byteRead fb (draws + unwritten fb a k) (a + k) i = byteRead fb draws a (k + i) := by
  simp only [byteRead, unwritten_add, Nat.add_assoc]

/-- `fromBytes16` of two bytes is their concatenation, first byte most significant (R120). -/
theorem fromBytes16_pair (a b : Byte) : fromBytes16 [a, b] = a ++ b := by
  apply BitVec.eq_of_toNat_eq
  have := a.isLt
  have := b.isLt
  simp only [fromBytes16, fromBytes, List.foldl, BitVec.toNat_ofNat, BitVec.toNat_append]
  rw [← Nat.shiftLeft_add_eq_or_of_lt b.isLt, Nat.shiftLeft_eq]
  omega

/-- `fromBytes32` of four bytes is their concatenation (R120). -/
theorem fromBytes32_quad (a b c d : Byte) : fromBytes32 [a, b, c, d] = a ++ b ++ c ++ d := by
  apply BitVec.eq_of_toNat_eq
  have := a.isLt
  have := b.isLt
  have := c.isLt
  have := d.isLt
  simp only [fromBytes32, fromBytes, List.foldl, BitVec.toNat_ofNat, BitVec.toNat_append]
  rw [← Nat.shiftLeft_add_eq_or_of_lt b.isLt, ← Nat.shiftLeft_add_eq_or_of_lt c.isLt,
    ← Nat.shiftLeft_add_eq_or_of_lt d.isLt]
  simp only [Nat.shiftLeft_eq]
  omega

/-- The header that DECODE extracts, field by field from the bytes it reads (R76, R140 step 3). -/
def headerAt (fb : Memory) (draws base : Nat) : Header where
  ver := byteRead fb draws base 2
  typ := byteRead fb draws base 3
  seq := byteRead fb draws base 4
  cmd := byteRead fb draws base 5 ++ byteRead fb draws base 6
  len := byteRead fb draws base 7 ++ byteRead fb draws base 8

theorem bytesRead_two (fb : Memory) (draws a : Nat) :
    bytesRead fb draws a 2 = [byteRead fb draws a 0, byteRead fb draws a 1] := rfl

/-- `parseFb` in closed form: the strict order of R140 over the bytes of R145. -/
theorem parseFb_eq (fb : Memory) (draws base L : Nat) :
    parseFb fb draws base L =
      if L < 11 then (.tooShort, draws)
      else if ¬(byteRead fb draws base 0 = 0xAA#8 ∧ byteRead fb draws base 1 = 0x55#8) then
        (.badSync, draws + unwritten fb base 2)
      else if L < 11 + (headerAt fb draws base).len.toNat then
        (.incomplete (headerAt fb draws base), draws + unwritten fb base 9)
      else
        (.ok (headerAt fb draws base)
          (byteRead fb (draws + unwritten fb base 9) (base + 9 + (headerAt fb draws base).len.toNat) 0 ++
            byteRead fb (draws + unwritten fb base 9) (base + 9 + (headerAt fb draws base).len.toNat) 1),
          draws + unwritten fb base 9 +
            unwritten fb (base + 9 + (headerAt fb draws base).len.toNat) 2) := by
  have hdr : Header.ofBytes (bytesRead fb (draws + unwritten fb base 2) (base + 2) 7) =
      headerAt fb draws base := by
    have : bytesRead fb (draws + unwritten fb base 2) (base + 2) 7 =
        [byteRead fb draws base 2, byteRead fb draws base 3, byteRead fb draws base 4,
          byteRead fb draws base 5, byteRead fb draws base 6, byteRead fb draws base 7,
          byteRead fb draws base 8] := by
      simp [bytesRead, List.range_succ, byteRead_add]
    simp [this, Header.ofBytes, headerAt, fromBytes16_pair]
  have d9 : draws + unwritten fb base 2 + unwritten fb (base + 2) 7 = draws + unwritten fb base 9 := by
    rw [Nat.add_assoc, ← unwritten_add]
  simp only [parseFb, readBytes_eq, hdr, d9, Header.frameLen, headerSize, checksumSize, minFrame,
    bytesRead_two, fromBytes16_pair, sync1, sync2, ne_eq, List.cons.injEq, and_true,
    show 9 + (headerAt fb draws base).len.toNat + 2 = 11 + (headerAt fb draws base).len.toNat by omega]

/-! ### What a command, an access and a step can do -/

/-- Every next state of a command: NOP and CRC_INIT, CRC_BYTE and the ranged commands in range, or a RANGE
fault. -/
theorem exec_cases (i : Instr) (s : State) :
    (∃ n, rangeOf s i = some n ∧ s.fbLen.toNat < s.a0.toNat + n ∧
      exec i s = .next (raiseFault .range s)) ∨
    ((∀ n, rangeOf s i = some n → s.a0.toNat + n ≤ s.fbLen.toNat) ∧
      ((i = .nop ∧ exec i s = .next s) ∨
       ((i = .crcInit ∨ i = .crcByte ∨ i = .crcBuf ∨ i = .crcAcc) ∧
          ∃ c d, exec i s = .next { s with crc := c, draws := d }) ∨
       ((i = .ldU16 ∨ i = .ldI16 ∨ i = .ldF32) ∧
          ∃ w d, exec i s = .next { s with cw := w, draws := d }) ∨
       ((i = .stU16 ∨ i = .stI16 ∨ i = .stF32) ∧
          ∃ bs, rangeOf s i = some bs.length ∧ exec i s = .next (memWrite s s.a0.toNat bs)) ∨
       (i = .decodeFrame ∧ exec i s = .next (decodeAt s s.a0.toNat)))) := by
  have key : ∀ (n : Nat) (t : State), rangeOf s i = some n → exec i s = guardRange s s.a0.toNat n t →
      (s.fbLen.toNat < s.a0.toNat + n ∧ exec i s = .next (raiseFault .range s)) ∨
      (s.a0.toNat + n ≤ s.fbLen.toNat ∧ exec i s = .next t) := by
    intro n t _ ht
    rcases Nat.lt_or_ge s.fbLen.toNat (s.a0.toNat + n) with h | h
    · exact .inl ⟨h, by rw [ht, guardRange_of_lt h]⟩
    · exact .inr ⟨h, by rw [ht, guardRange_of_le h]⟩
  cases i
  case nop => exact .inr ⟨by simp [rangeOf], .inl ⟨rfl, rfl⟩⟩
  case crcInit => exact .inr ⟨by simp [rangeOf], .inr (.inl ⟨by simp, _, s.draws, rfl⟩)⟩
  case crcByte => exact .inr ⟨by simp [rangeOf], .inr (.inl ⟨by simp, _, s.draws, rfl⟩)⟩
  case crcBuf =>
    rcases key _ _ rfl rfl with ⟨h, e⟩ | ⟨h, e⟩
    · exact .inl ⟨_, rfl, h, e⟩
    · exact .inr ⟨by simpa [rangeOf] using h, .inr (.inl ⟨by simp, _, _, e⟩)⟩
  case crcAcc =>
    rcases key _ _ rfl rfl with ⟨h, e⟩ | ⟨h, e⟩
    · exact .inl ⟨_, rfl, h, e⟩
    · exact .inr ⟨by simpa [rangeOf] using h, .inr (.inl ⟨by simp, _, _, e⟩)⟩
  case ldU16 =>
    rcases key _ _ rfl rfl with ⟨h, e⟩ | ⟨h, e⟩
    · exact .inl ⟨_, rfl, h, e⟩
    · exact .inr ⟨by simpa [rangeOf] using h, .inr (.inr (.inl ⟨by simp, _, _, e⟩))⟩
  case ldI16 =>
    rcases key _ _ rfl rfl with ⟨h, e⟩ | ⟨h, e⟩
    · exact .inl ⟨_, rfl, h, e⟩
    · exact .inr ⟨by simpa [rangeOf] using h, .inr (.inr (.inl ⟨by simp, _, _, e⟩))⟩
  case ldF32 =>
    rcases key _ _ rfl rfl with ⟨h, e⟩ | ⟨h, e⟩
    · exact .inl ⟨_, rfl, h, e⟩
    · exact .inr ⟨by simpa [rangeOf] using h, .inr (.inr (.inl ⟨by simp, _, _, e⟩))⟩
  case stU16 =>
    rcases key _ _ rfl rfl with ⟨h, e⟩ | ⟨h, e⟩
    · exact .inl ⟨_, rfl, h, e⟩
    · exact .inr ⟨by simpa [rangeOf] using h, .inr (.inr (.inr (.inl ⟨by simp, _, rfl, e⟩)))⟩
  case stI16 =>
    rcases key _ _ rfl rfl with ⟨h, e⟩ | ⟨h, e⟩
    · exact .inl ⟨_, rfl, h, e⟩
    · exact .inr ⟨by simpa [rangeOf] using h, .inr (.inr (.inr (.inl ⟨by simp, _, rfl, e⟩)))⟩
  case stF32 =>
    rcases key _ _ rfl rfl with ⟨h, e⟩ | ⟨h, e⟩
    · exact .inl ⟨_, rfl, h, e⟩
    · exact .inr ⟨by simpa [rangeOf] using h, .inr (.inr (.inr (.inl ⟨by simp, _, rfl, e⟩)))⟩
  case decodeFrame =>
    rcases Nat.lt_or_ge s.fbLen.toNat s.a0.toNat with h | h
    · exact .inl ⟨0, rfl, by omega, by simp [exec, execDecodeFrame, operandOffset, h]⟩
    · exact .inr ⟨by simpa [rangeOf] using h, .inr (.inr (.inr (.inr ⟨rfl, by
        simp [exec, execDecodeFrame, operandOffset, show ¬(s.fbLen.toNat < s.a0.toNat) by omega]⟩)))⟩

/-- The decoder reads exactly the opcodes, each as its command. -/
theorem decode_encode (i : Instr) : decode (encode i) = .ok i := by cases i <;> rfl

theorem eq_encode_of_decode {v : Word} {i : Instr} (h : decode v = .ok i) : v = encode i := by
  have key : ∀ p ∈ opcodeMap, p.1 = encode p.2 := by decide
  simp only [decode] at h
  split at h
  · rename_i j hj
    obtain rfl : j = i := by simpa using h
    obtain ⟨l₁, l₂, hl, -⟩ := List.lookup_eq_some_iff.mp hj
    exact key (v, j) (by simp [hl])
  · simp at h

/-- A write to CMD of the opcode of `i`. -/
theorem issueCommand_encode (i : Instr) (s : State) :
    issueCommand (encode i) s = exec i { s with cmd := encode i } := by
  simp [issueCommand, decode_encode]

/-- A write to CMD of a value that is no opcode. -/
theorem issueCommand_illegal {v : Word} (h : ∀ i, v ≠ encode i) (s : State) :
    issueCommand v s = .next (raiseFault .illegalOp { s with cmd := v }) := by
  simp only [issueCommand]
  cases hd : decode v with
  | ok i => exact absurd (eq_encode_of_decode hd) (h i)
  | error e => rfl

/-- A write to CMD either issues a command or is illegal (R70, R73). -/
theorem cmdWrite_cases (v : Word) : (∃ i, v = encode i) ∨ ∀ i, v ≠ encode i := by
  by_cases h : ∃ i, v = encode i
  · exact .inl h
  · exact .inr fun i hi => h ⟨i, hi⟩

/-- A register write, by index (R22, R23): CMD; A0; A1; CW; FB_LEN; or nothing. -/
theorem regWrite_cases (r : RegIndex) (v : Word) (s : State) :
    (r = 0x00#6 ∧ regWrite r v s = issueCommand v s) ∨
    (r = 0x02#6 ∧ regWrite r v s = .next { s with a0 := v }) ∨
    (r = 0x03#6 ∧ regWrite r v s = .next { s with a1 := v }) ∨
    (r = 0x05#6 ∧ regWrite r v s = .next { s with cw := v }) ∨
    (r = 0x06#6 ∧ regWrite r v s = .next (writeFbLen v s)) ∨
    ((r.toNat = 1 ∨ r.toNat = 4 ∨ 7 ≤ r.toNat) ∧ regWrite r v s = .next s) := by
  by_cases hr : r.toNat < 17
  · obtain ⟨k, hk, rfl⟩ : ∃ k < 17, r = BitVec.ofNat 6 k := ⟨r.toNat, hr, by simp⟩
    interval_cases k
    · exact .inl ⟨rfl, rfl⟩
    · exact .inr (.inr (.inr (.inr (.inr ⟨by decide, rfl⟩))))
    · exact .inr (.inl ⟨rfl, rfl⟩)
    · exact .inr (.inr (.inl ⟨rfl, rfl⟩))
    · exact .inr (.inr (.inr (.inr (.inr ⟨by decide, rfl⟩))))
    · exact .inr (.inr (.inr (.inl ⟨rfl, rfl⟩)))
    · exact .inr (.inr (.inr (.inr (.inl ⟨rfl, rfl⟩))))
    all_goals exact .inr (.inr (.inr (.inr (.inr ⟨by decide, rfl⟩))))
  · have h : RegName.ofIndex r = none := by
      simp only [RegName.ofIndex]
      exact List.getElem?_eq_none (by simp [registerMap]; omega)
    exact .inr (.inr (.inr (.inr (.inr ⟨by omega, by simp [regWrite, h]⟩))))

theorem step_nil {s : State} (h : s.pending = []) : step s = .next s := by
  simp [step, stepAccess, h]

theorem step_cons {s : State} {a : Access} {rest : List Access} (h : s.pending = a :: rest) :
    step s = performAccess a { s with pending := rest } := by
  simp [step, stepAccess, h]

/-- The write of an opcode to CMD as the next access: the command runs, with CMD already written (R70). -/
theorem step_issue {s : State} {i : Instr} {rest : List Access} (h : s.pending = issue i :: rest) :
    step s = exec i { s with pending := rest, cmd := encode i } := by
  rw [step_cons h]
  show issueCommand (encode i) _ = _
  rw [issueCommand_encode]

/-- A run goes on from the next state of its first step. -/
theorem run_succ {k : Nat} {s t : State} (h : step s = .next t) :
    Host.Core.run core (k + 1) s = Host.Core.run core k t := by
  have h' : core.step s = .next t := h
  have := Host.Core.run.eq_2 core s k
  rw [h'] at this
  exact this

/-! ### Reading and folding a range in two parts -/

theorem bytesRead_add (fb : Memory) (d a n m : Nat) :
    bytesRead fb d a (n + m) = bytesRead fb d a n ++ bytesRead fb (d + unwritten fb a n) (a + n) m := by
  simp only [bytesRead, List.range_add, List.map_append, List.map_map]
  congr 1
  exact List.map_congr_left fun i _ => (byteRead_add fb d a n i).symm

theorem crcFold_append (c : Half) (a b : List Byte) : crcFold c (a ++ b) = crcFold (crcFold c a) b := by
  induction a generalizing c with
  | nil => rfl
  | cons x a ih => exact ih _

end Sys2Proof.Machine
end

