-- ==== Sys2Proof/Laws/Codec.lean ====
section
/-! SUPPORT. The big-endian conversions as concatenation and slicing of bit vectors, what stored bytes read
as, and the codec commands on bytes that have been written. -/

namespace Sys2Proof.Machine

/-! ### Slices and concatenations -/

theorem setWidth_eq_append (h : Half) : h.setWidth 32 = 0#16 ++ h := by
  ext i hi
  rw [BitVec.getElem_setWidth, BitVec.getElem_append]
  split
  · rw [BitVec.getLsbD_eq_getElem]
  · rw [BitVec.getLsbD_of_ge _ _ (by omega)]
    simp

/-- Sign extension copies the top bit of the first byte. -/
theorem signExtend_eq_append (a b : Byte) :
    (a ++ b : Half).signExtend 32 = (if a.msb then 0xFFFF#16 else 0#16) ++ (a ++ b : Half) := by
  have hm : (a ++ b : Half).msb = a.msb := (BitVec.msb_append (x := a) (y := b)).trans (by simp)
  ext i hi
  rw [BitVec.getElem_signExtend, BitVec.getElem_append, hm]
  split
  · rfl
  · cases a.msb
    · simp
    · rw [show (if true = true then 0xFFFF#16 else 0#16) = BitVec.allOnes 16 from rfl,
        BitVec.getElem_allOnes]

/-- A byte sliced out of a concatenation that starts on a byte boundary. -/
theorem extractLsb'_append_low (a : BitVec n) (b : Byte) : (a ++ b).extractLsb' 0 8 = b := by
  ext i hi
  simp [BitVec.getElem_extractLsb', BitVec.getLsbD_append, hi]

theorem extractLsb'_append_high (a : BitVec n) (b : Byte) (k : Nat) :
    (a ++ b).extractLsb' (8 + k) 8 = a.extractLsb' k 8 := by
  ext i hi
  simp [BitVec.getElem_extractLsb', BitVec.getLsbD_append, show ¬(8 + k + i < 8) by omega,
    show 8 + k + i - 8 = k + i by omega]

theorem extractLsb'_self (b : Byte) : b.extractLsb' 0 8 = b := by
  ext i hi
  simp

@[simp] theorem toBytes16_append (a b : Byte) : toBytes16 (a ++ b) = [a, b] := by
  rw [toBytes16, extractLsb'_append_low]
  congr 1
  exact (extractLsb'_append_high a b 0).trans (extractLsb'_self a)

@[simp] theorem toBytes32_append (a b c d : Byte) : toBytes32 (a ++ b ++ c ++ d) = [a, b, c, d] := by
  rw [toBytes32, extractLsb'_append_low]
  have h24 : (a ++ b ++ c ++ d : Word).extractLsb' 24 8 = a :=
    (extractLsb'_append_high (a ++ b ++ c) d 16).trans
      ((extractLsb'_append_high (a ++ b) c 8).trans
        ((extractLsb'_append_high a b 0).trans (extractLsb'_self a)))
  have h16 : (a ++ b ++ c ++ d : Word).extractLsb' 16 8 = b :=
    (extractLsb'_append_high (a ++ b ++ c) d 8).trans
      ((extractLsb'_append_high (a ++ b) c 0).trans (extractLsb'_append_low a b))
  have h8 : (a ++ b ++ c ++ d : Word).extractLsb' 8 8 = c :=
    (extractLsb'_append_high (a ++ b ++ c) d 0).trans (extractLsb'_append_low (a ++ b) c)
  rw [h24, h16, h8]

theorem append_bytes16 (v : Half) : (v.extractLsb' 8 8 ++ v.extractLsb' 0 8 : Half) = v := by
  ext i hi
  rw [BitVec.getElem_append]
  split
  · simp [BitVec.getLsbD_eq_getElem, hi]
  · simp [show 8 + (i - 8) = i by omega, BitVec.getLsbD_eq_getElem, hi]

theorem append_bytes32 (v : Word) :
    (v.extractLsb' 24 8 ++ v.extractLsb' 16 8 ++ v.extractLsb' 8 8 ++ v.extractLsb' 0 8 : Word) = v := by
  ext i hi
  rw [BitVec.getElem_append]
  split
  · simp [BitVec.getLsbD_eq_getElem, hi]
  · rw [BitVec.getElem_append]
    split
    · simp [show 8 + (i - 8) = i by omega, BitVec.getLsbD_eq_getElem, hi]
    · rw [BitVec.getElem_append]
      split
      · simp [show 16 + (i - 8 - 8) = i by omega, BitVec.getLsbD_eq_getElem, hi]
      · simp [show 24 + (i - 8 - 8 - 8) = i by omega, BitVec.getLsbD_eq_getElem, hi]

/-- The low half of a word built from two halves. -/
theorem extractLsb'_append_half (t h : Half) : (t ++ h : Word).extractLsb' 0 16 = h := by
  ext i hi
  rw [BitVec.getElem_extractLsb', BitVec.getLsbD_append]
  simp [hi]

/-! ### Stored bytes -/

/-- The bytes a store has just written. -/
theorem holds_writeBytes (m : Memory) (a : Nat) (bs : List Byte) : Holds (m.writeBytes a bs) a bs := by
  intro i h
  rw [Memory.read_writeBytes, dif_pos (by omega)]
  simp

/-- Writing the bytes that are there already changes nothing. -/
theorem writeBytes_of_holds {fb : Memory} {a : Nat} {bs : List Byte} (h : Holds fb a bs) (hw : fb.wf) :
    fb.writeBytes a bs = fb := by
  refine Memory.ext_of_read (Memory.writeBytes_wf hw _ _) hw fun x => ?_
  rw [Memory.read_writeBytes]
  split
  · rename_i hx
    rw [← h (x - a) (by omega), show a + (x - a) = x by omega]
  · rfl

/-- A half that has been written reads as itself and draws nothing. -/
theorem memRead16_of_holds {s : State} {a : Nat} {v : Half} (h : Holds s.fb a (toBytes16 v)) :
    memRead16 s a = v ∧ fbDraws s a 2 = s.draws := by
  have hb := bytesRead_of_holds s.fb s.draws a h
  have hd := unwritten_of_holds s.fb a h
  rw [show (toBytes16 v).length = 2 from rfl] at hb hd
  rw [memRead16, fbBytes_eq, fbDraws_eq, hb, hd]
  exact ⟨(fromBytes16_pair _ _).trans (append_bytes16 v), rfl⟩

/-- A word that has been written reads as itself and draws nothing. -/
theorem memRead32_of_holds {s : State} {a : Nat} {v : Word} (h : Holds s.fb a (toBytes32 v)) :
    memRead32 s a = v ∧ fbDraws s a 4 = s.draws := by
  have hb := bytesRead_of_holds s.fb s.draws a h
  have hd := unwritten_of_holds s.fb a h
  rw [show (toBytes32 v).length = 4 from rfl] at hb hd
  rw [memRead32, fbBytes_eq, fbDraws_eq, hb, hd]
  exact ⟨(fromBytes32_quad _ _ _ _).trans (append_bytes32 v), rfl⟩

end Sys2Proof.Machine
end

