-- ==== Sys2Proof/Laws/Access.lean ====
section
/-! SUPPORT. The inversion of one host access: everything it can do, said once. -/

namespace Sys2Proof.Machine

theorem encode_injective {i j : Instr} (h : encode i = encode j) : i = j := by
  have := decode_encode i
  rw [h, decode_encode] at this
  exact (Except.ok.inj this).symm

/-- A register write that raises a fault is a write to CMD, or one to FB_LEN above FB_CAP (R171). -/
theorem index_of_raises {s : State} {r : RegIndex} {v : Word} {c : FaultCause}
    (h : Raises s (.regWr r v) c) : r = 0x00#6 ∨ (r = 0x06#6 ∧ s.config.fbCap.toNat < v.toNat) := by
  generalize hx : Access.regWr r v = x at h
  cases h with
  | illegal v h => exact .inl (Access.regWr.inj hx).1
  | range i n hn h => exact .inl (Access.regWr.inj hx).1
  | length w h =>
    obtain ⟨hr, hv⟩ := Access.regWr.inj hx
    exact .inr ⟨hr, hv ▸ h⟩

/-- A command that raises a fault is out of range (R171). -/
theorem range_of_raises {s : State} {i : Instr} {c : FaultCause} (h : Raises s (issue i) c) :
    ∃ n, rangeOf s i = some n ∧ s.fbLen.toNat < s.a0.toNat + n := by
  generalize hx : issue i = x at h
  cases h with
  | illegal v h => exact absurd (Access.regWr.inj hx).2.symm (h i)
  | range j n hn h =>
    obtain rfl := encode_injective (Access.regWr.inj hx).2
    exact ⟨n, hn, h⟩
  | length v h => exact absurd (Access.regWr.inj hx).1 (by decide)

/-- Everything one access can do: raise a fault of the table R171, or one of the effects below, each with the
accesses that have it. -/
theorem performAccess_cases {s t : State} {a : Access} (h : performAccess a s = .next t) :
    (∃ c, Raises s a c ∧ ((c = .illegalOp ∧ ∃ v, a = .regWr 0#6 v ∧ t = raiseFault c { s with cmd := v }) ∨
        (c = .range ∧ ∃ i, a = issue i ∧ t = raiseFault c { s with cmd := encode i }) ∨ (c = .range ∧ ∃ v, a = .regWr 6#6 v ∧ t = raiseFault c s))) ∨
    ((∀ c, ¬Raises s a c) ∧
     ((∃ i, a = issue i ∧ i = .nop ∧ t = { s with cmd := encode i }) ∨
      (∃ i c d, a = issue i ∧ (i = .crcInit ∨ i = .crcByte ∨ i = .crcBuf ∨ i = .crcAcc) ∧ t = { s with cmd := encode i, crc := c, draws := d }) ∨
      (∃ i w d, a = issue i ∧ (i = .ldU16 ∨ i = .ldI16 ∨ i = .ldF32) ∧ t = { s with cmd := encode i, cw := w, draws := d }) ∨
      (∃ i bs, a = issue i ∧ (i = .stU16 ∨ i = .stI16 ∨ i = .stF32) ∧ rangeOf s i = some bs.length ∧ s.a0.toNat + bs.length ≤ s.fbLen.toNat ∧
         t = memWrite { s with cmd := encode i } s.a0.toNat bs) ∨
      (a = issue .decodeFrame ∧ s.a0.toNat ≤ s.fbLen.toNat ∧ t = decodeAt { s with cmd := encode .decodeFrame } s.a0.toNat) ∨
      (∃ v, a = .regWr 2#6 v ∧ t = { s with a0 := v }) ∨
      (∃ v, a = .regWr 3#6 v ∧ t = { s with a1 := v }) ∨
      (∃ v, a = .regWr 5#6 v ∧ t = { s with cw := v }) ∨
      (∃ v, a = .regWr 6#6 v ∧ v.toNat ≤ s.config.fbCap.toNat ∧ t = clearValid { s with fbLen := v }) ∨
      (∃ r v, a = .regWr r v ∧ (r.toNat = 1 ∨ r.toNat = 4 ∨ 7 ≤ r.toNat) ∧ t = s) ∨
      (∃ r, a = .regRd r ∧ t = reply (.regData (regValue s r)) s) ∨
      (∃ p b, a = .bufWr p b ∧ p.toNat < s.config.fbCap.toNat ∧ t = clearValid { s with fb := s.fb.write p.toNat b }) ∨
      (∃ p b, a = .bufWr p b ∧ s.config.fbCap.toNat ≤ p.toNat ∧ t = s) ∨
      (∃ p b d, a = .bufRd p ∧ t = reply (.bufData b) { s with draws := d }) ∨
      (a = .reset ∧ t = hostReset s))) := by
  cases a with
  | regWr r v =>
    have h' : regWrite r v s = .next t := h
    rcases regWrite_cases r v s with ⟨rfl, e⟩ | ⟨rfl, e⟩ | ⟨rfl, e⟩ | ⟨rfl, e⟩ | ⟨rfl, e⟩ | ⟨hr, e⟩
    · rw [e] at h'
      rcases cmdWrite_cases v with ⟨i, rfl⟩ | hv
      · rw [issueCommand_encode] at h'
        have no : (∀ n, rangeOf s i = some n → s.a0.toNat + n ≤ s.fbLen.toNat) → ∀ c, ¬Raises s (.regWr 0#6 (encode i)) c := by
          intro hk c hc
          obtain ⟨n, hn, hl⟩ := range_of_raises hc
          have := hk n hn; omega
        have rof : rangeOf { s with cmd := encode i } i = rangeOf s i := by cases i <;> rfl
        rcases exec_cases i { s with cmd := encode i } with ⟨n, hn, hl, e⟩ | ⟨hk, ho⟩
        · rw [e] at h'; cases h'
          exact .inl ⟨.range, Raises.range i n (by rw [← rof]; exact hn) hl, .inr (.inl ⟨rfl, i, rfl, rfl⟩)⟩
        · rw [rof] at hk ho
          refine .inr ⟨no hk, ?_⟩
          rcases ho with ⟨hi, e⟩ | ⟨hi, c, d, e⟩ | ⟨hi, w, d, e⟩ | ⟨hi, bs, hb, e⟩ | ⟨hi, e⟩
          · rw [e] at h'; cases h'; exact .inl ⟨i, rfl, hi, rfl⟩
          · rw [e] at h'; cases h'; exact .inr (.inl ⟨i, c, d, rfl, hi, rfl⟩)
          · rw [e] at h'; cases h'; exact .inr (.inr (.inl ⟨i, w, d, rfl, hi, rfl⟩))
          · rw [e] at h'; cases h'; exact .inr (.inr (.inr (.inl ⟨i, bs, rfl, hi, hb, hk _ hb, rfl⟩)))
          · subst hi; rw [e] at h'; cases h'
            exact .inr (.inr (.inr (.inr (.inl ⟨rfl, hk 0 rfl, rfl⟩))))
      · rw [issueCommand_illegal hv] at h'; cases h'
        exact .inl ⟨.illegalOp, .illegal v hv, .inl ⟨rfl, v, rfl, rfl⟩⟩
    · rw [e] at h'; cases h'
      exact .inr ⟨fun c hc => (by rcases index_of_raises hc with h | ⟨h, _⟩ <;> simp at h), by simp [issue]⟩
    · rw [e] at h'; cases h'
      exact .inr ⟨fun c hc => (by rcases index_of_raises hc with h | ⟨h, _⟩ <;> simp at h), by simp [issue]⟩
    · rw [e] at h'; cases h'
      exact .inr ⟨fun c hc => (by rcases index_of_raises hc with h | ⟨h, _⟩ <;> simp at h), by simp [issue]⟩
    · rw [e] at h'; cases h'
      by_cases hv : v.toNat ≤ s.config.fbCap.toNat
      · exact .inr ⟨fun c hc => (by rcases index_of_raises hc with h | ⟨_, h⟩ <;> [simp at h; omega]), by simp [issue, writeFbLen, hv]⟩
      · exact .inl ⟨.range, .length v (by omega), .inr (.inr ⟨rfl, v, rfl, by simp [writeFbLen, hv]⟩)⟩
    · rw [e] at h'; cases h'
      refine .inr ⟨fun c hc => (by rcases index_of_raises hc with rfl | ⟨rfl, _⟩ <;> (revert hr; decide)), ?_⟩
      exact .inr (.inr (.inr (.inr (.inr (.inr (.inr (.inr (.inr (.inl ⟨r, v, rfl, hr, rfl⟩)))))))))
  | regRd r =>
    cases h
    exact .inr ⟨fun c hc => (by cases hc), by simp [issue]⟩
  | bufWr p b =>
    cases h
    refine .inr ⟨fun c hc => (by cases hc), ?_⟩
    by_cases hp : p.toNat < s.config.fbCap.toNat
    · simp [issue, bufWrite, hp]
    · simp [issue, bufWrite, hp]; omega
  | bufRd p =>
    cases h
    refine .inr ⟨fun c hc => (by cases hc), ?_⟩
    simp only [bufRead]
    split
    · simp [issue, reply]
    · simp [issue]; exact ⟨_, _, rfl⟩
  | reset =>
    cases h
    exact .inr ⟨fun c hc => (by cases hc), by simp [issue]⟩

/-- The same for a step whose next access is `a`. -/
theorem step_cases {s t : State} {a : Access} {rest : List Access} (hn : Next s a rest)
    (h : step s = .next t) : performAccess a { s with pending := rest } = .next t := by
  rw [← step_cons hn, h]

/-- A fault depends on the registers only, not on the host's queue. -/
theorem raises_pending {s : State} {rest : List Access} {a : Access} {c : FaultCause} :
    Raises { s with pending := rest } a c ↔ Raises s a c := by
  constructor
  · intro h
    cases h with
    | illegal v h => exact .illegal v h
    | range i n hn h => exact .range i n (by cases i <;> exact hn) h
    | length v h => exact .length v h
  · intro h
    cases h with
    | illegal v h => exact .illegal v h
    | range i n hn h => exact .range i n (by cases i <;> exact hn) h
    | length v h => exact .length v h

end Sys2Proof.Machine
end

