-- ==== Sys2Proof/Laws/HostSyntax.lean ====
section
/-! SUPPORT. What the host's lines do, said once per line: the access they perform, and the variables they
leave. -/

namespace Sys2Proof.Machine

variable {vars : HostVars} {s t : State} {e f : HostExpr} {x y : Word}

@[simp] theorem runLines_nil (h : HostRun) : runLines [] h = some h := rfl

theorem runLines_cons_of_run {l : HostLine} {ls : List HostLine} {h k : HostRun} (hl : l.run h = some k) :
    runLines (l :: ls) h = runLines ls k := by
  simp [runLines, hl]

/-- `wr NAME, e` performs the register write of e's value. -/
theorem run_wr (r : RegName) (he : e.eval vars = some x)
    (h : regWrite r.index x s = .next t) : (HostLine.wr r e).run ⟨vars, s⟩ = some ⟨vars, t⟩ := by
  simp [HostLine.run, HostLine.access, he, HostRun.perform, step, stepAccess, performAccess, h, HostRun.bind,
    HostLine.target]

/-- `wb e, f` performs the buffer write of bits [7:0] of f's value at e's value. -/
theorem run_wb (he : e.eval vars = some x) (hf : f.eval vars = some y) :
    (HostLine.wb e f).run ⟨vars, s⟩ = some ⟨vars, bufWrite x (y.setWidth 8) s⟩ := by
  simp [HostLine.run, HostLine.access, he, hf, HostRun.perform, step, stepAccess, performAccess, HostRun.bind,
    HostLine.target]

/-- The line that issues a command performs it, with its opcode in CMD. -/
theorem run_cmdLine {i : Instr} (h : exec i { s with cmd := encode i } = .next t) :
    (cmdLine i).run ⟨vars, s⟩ = some ⟨vars, t⟩ :=
  run_wr .cmd rfl (by rw [← h]; cases i <;> rfl)

end Sys2Proof.Machine
end

