-- ==== Sys2Proof/Laws/PerInstr.lean ====
section
/-! SUPPORT. Statements made per command. -/

namespace Sys2Proof.Laws

/-- Each command is well formed, its opcode decodes to it, and the opcode table's row of 32 bits gives it. -/
def RoundTrip.Statement (i : Instr) : Prop :=
  i.wellFormed = true ∧ decode (encode i) = .ok i ∧ decodeTableWord 32 (encode i).toNat = some i

theorem RoundTrip.nop : RoundTrip.Statement .nop := ⟨rfl, rfl, rfl⟩
theorem RoundTrip.crcInit : RoundTrip.Statement .crcInit := ⟨rfl, rfl, rfl⟩
theorem RoundTrip.crcByte : RoundTrip.Statement .crcByte := ⟨rfl, rfl, rfl⟩
theorem RoundTrip.crcBuf : RoundTrip.Statement .crcBuf := ⟨rfl, rfl, rfl⟩
theorem RoundTrip.crcAcc : RoundTrip.Statement .crcAcc := ⟨rfl, rfl, rfl⟩
theorem RoundTrip.ldU16 : RoundTrip.Statement .ldU16 := ⟨rfl, rfl, rfl⟩
theorem RoundTrip.ldI16 : RoundTrip.Statement .ldI16 := ⟨rfl, rfl, rfl⟩
theorem RoundTrip.ldF32 : RoundTrip.Statement .ldF32 := ⟨rfl, rfl, rfl⟩
theorem RoundTrip.stU16 : RoundTrip.Statement .stU16 := ⟨rfl, rfl, rfl⟩
theorem RoundTrip.stI16 : RoundTrip.Statement .stI16 := ⟨rfl, rfl, rfl⟩
theorem RoundTrip.stF32 : RoundTrip.Statement .stF32 := ⟨rfl, rfl, rfl⟩
theorem RoundTrip.decodeFrame : RoundTrip.Statement .decodeFrame := ⟨rfl, rfl, rfl⟩

end Sys2Proof.Laws
end

