-- ==== Sys2Proof/Tests/Slice0.lean ====
section
/-! SUPPORT. The model's own tests. Every expected value comes from spec/95_test_vectors.md (V1 to V32, S1 to
S10) or from the rule named. The second part gives, for every obligation with hypotheses, a concrete state and
operands that meet them together, one per clause where there are several, at the edges of their ranges. -/

set_option Elab.async false

namespace Sys2Proof.Tests

open Sys2Proof Sys2Proof.Machine

/-- Reset, then the bytes `bs` written at 0, 1, … and FB_LEN = `len`. -/
def start (bs : List Byte) (len : Word) : State :=
  { State.reset with fb := bs.zipIdx.map (fun p => (p.2, p.1)), fbLen := len }

/-- The next state, if there is one. -/
def nextOf (o : Host.Outcome State Fault Refusal) : Option State :=
  match o with
  | .next t => some t
  | .fault _ => none
  | .refused _ => none

/-- One access performed from `s`. -/
def after (a : Access) (s : State) : Option State := nextOf (step { s with pending := [a] })

/-- ASCII "123456789" (S2). -/
def digits : List Byte := [0x31, 0x32, 0x33, 0x34, 0x35, 0x36, 0x37, 0x38, 0x39]

/-- The smallest frame (V16). -/
def smallest : List Byte := [0xAA, 0x55, 0x10, 0, 0, 0, 0, 0, 0, 0xC1, 0x0A]

/-- The Nack frame of the source's scenario (S8, V20). -/
def nack : List Byte := [0xAA, 0x55, 0x10, 0x04, 0x07, 0x30, 0x01, 0x00, 0x01, 0x03, 0x19, 0x05]

/-- The state of V30: the smallest frame just decoded Ok. -/
def decoded : State :=
  { start smallest 11#32 with
    valid := true, fVer := 0x10, fPoff := 9#32, fCrc := 0xC10A, fCons := 11#32 }

/-! ### Well-formedness, decoding, encoding -/

theorem test_capacity_ten_refused : Config.wellFormed ⟨10#32⟩ = false := by decide
theorem test_capacity_eleven_accepted : Config.wellFormed ⟨11#32⟩ = true := by decide
theorem test_default_capacity_accepted : Config.wellFormed Config.default = true := by decide

theorem test_decode_nop : decode 0b00000000000000000000000000000000#32 = .ok .nop := rfl
theorem test_decode_crc_init : decode 0b00000000000000000000000000000001#32 = .ok .crcInit := rfl
theorem test_decode_crc_byte : decode 0b00000000000000000000000000000010#32 = .ok .crcByte := rfl
theorem test_decode_crc_buf : decode 0b00000000000000000000000000000011#32 = .ok .crcBuf := rfl
theorem test_decode_crc_acc : decode 0b00000000000000000000000000000100#32 = .ok .crcAcc := rfl
theorem test_decode_ld_u16 : decode 0b00000000000000000000000000010000#32 = .ok .ldU16 := rfl
theorem test_decode_ld_i16 : decode 0b00000000000000000000000000010001#32 = .ok .ldI16 := rfl
theorem test_decode_ld_f32 : decode 0b00000000000000000000000000010010#32 = .ok .ldF32 := rfl
theorem test_decode_st_u16 : decode 0b00000000000000000000000000011000#32 = .ok .stU16 := rfl
theorem test_decode_st_i16 : decode 0b00000000000000000000000000011001#32 = .ok .stI16 := rfl
theorem test_decode_st_f32 : decode 0b00000000000000000000000000011010#32 = .ok .stF32 := rfl
theorem test_decode_decode : decode 0b00000000000000000000000000100000#32 = .ok .decodeFrame := rfl
/-- V26: the whole 32-bit value is matched, so a low byte 0x20 is not enough. -/
theorem test_decode_whole_word : decode 0x00000120#32 = .error (.illegalOp 0x00000120#32) := rfl
theorem test_decode_gap : decode 0x00000005#32 = .error (.illegalOp 0x00000005#32) := rfl
theorem test_table_word : decodeTableWord 32 0x1A = some .stF32 := by decide
/-- No two opcodes are equal. -/
theorem test_opcodes_distinct : (opcodeMap.map Prod.fst).Nodup := by decide

/-! ### NOP and CRC (V1 to V7, V31) -/

theorem test_nop : after (issue .nop) decoded = some { decoded with cmd := 0#32, pending := [] } := by
  decide
theorem test_crc_step : crcStep 0xFFFF#16 0x01#8 = 0x807E#16 ∧ crcStep 0xFFFF#16 0xFF#8 = 0x00FF#16 := by
  decide +kernel
theorem test_crc16 : crc16 [0x01, 0x02] = 0xE181#16 ∧ crc16 [] = 0xFFFF#16 := by decide +kernel
theorem test_crc_init :
    (nextOf (exec .crcInit { State.reset with crc := 0x4B37#16 })).map (·.crc) = some 0xFFFF#16 := by
  decide
theorem test_crc_byte :
    (nextOf (exec .crcByte { State.reset with a0 := 0x12345631#32 })).map (·.crc) = some 0x947E#16 := by
  decide +kernel
theorem test_crc_buf :
    (nextOf (exec .crcBuf { start digits 9#32 with a1 := 9#32 })).map (·.crc) = some 0x4B37#16 := by
  decide +kernel
theorem test_crc_buf_no_wrap :
    (nextOf (exec .crcBuf { start digits 9#32 with a0 := 0xFFFFFFFF#32, a1 := 2#32 })).map statusWord =
      some 0x2100#32 := by decide +kernel
theorem test_crc_acc :
    (nextOf (exec .crcAcc { start digits 9#32 with
      a0 := 4#32, a1 := 5#32, crc := crc16 (digits.take 4) })).map (·.crc) = some 0x4B37#16 := by
  decide +kernel
theorem test_crc_acc_empty_at_end :
    (nextOf (exec .crcAcc { start digits 9#32 with a0 := 9#32, crc := 0x1234#16 })).map
      (fun t => (t.crc, statusWord t)) = some (0x1234#16, 0#32) := by decide +kernel

/-! ### Codec (V10 to V12, V25) -/

theorem test_ld_u16 : (nextOf (exec .ldU16 (start [0xFF, 0xFE] 2#32))).map (·.cw) = some 0x0000FFFE#32 := by
  decide +kernel
theorem test_ld_u16_past_end :
    (nextOf (exec .ldU16 { start [1, 2, 3, 9] 3#32 with a0 := 2#32, cw := 0xAABBCCDD#32 })).map
      (fun t => (t.cw, statusWord t)) = some (0xAABBCCDD#32, 0x2100#32) := by decide +kernel
theorem test_ld_i16 : (nextOf (exec .ldI16 (start [0x80, 0x00] 2#32))).map (·.cw) = some 0xFFFF8000#32 := by
  decide +kernel
theorem test_ld_i16_positive :
    (nextOf (exec .ldI16 (start [0x7F, 0xFF] 2#32))).map (·.cw) = some 0x00007FFF#32 := by decide +kernel
theorem test_ld_f32 :
    (nextOf (exec .ldF32 (start [0x7F, 0xC0, 0x00, 0x01] 4#32))).map (·.cw) = some 0x7FC00001#32 := by
  decide +kernel
theorem test_st_u16 :
    (nextOf (exec .stU16 { start [0, 0, 0, 0] 4#32 with cw := 0x00012345#32 })).map (·.fb) =
      some [(0, 0x23), (1, 0x45), (2, 0), (3, 0)] := by decide +kernel
theorem test_st_i16 :
    (nextOf (exec .stI16 { start [0, 0, 0, 0] 4#32 with cw := 0xFFFFFFFE#32 })).map (·.fb) =
      some [(0, 0xFF), (1, 0xFE), (2, 0), (3, 0)] := by decide +kernel
theorem test_st_f32 :
    (nextOf (exec .stF32 { start [] 18#32 with a0 := 14#32, cw := 0x41200000#32 })).map (·.fb) =
      some [(14, 0x41), (15, 0x20), (16, 0), (17, 0)] := by decide +kernel
theorem test_st_f32_no_partial_effect :
    (nextOf (exec .stF32 { start [1, 2, 3, 9] 3#32 with cw := 0xAABBCCDD#32 })).map
      (fun t => (t.fb, statusWord t)) = some ((start [1, 2, 3, 9] 3#32).fb, 0x2100#32) := by decide +kernel

/-! ### Parser (V13 to V24) -/

/-- STATUS and the nine F_ registers, as a read of the register port gives them. -/
def shown (t : State) : List Word :=
  [.status, .fVer, .fType, .fSeq, .fCmd, .fLen, .fPoff, .fCrc, .fCons, .fFlags].map (readReg t)

theorem test_decode_v13_too_short_wins :
    (nextOf (exec .decodeFrame (start (List.replicate 10 0) 10#32))).map shown =
      some [1, 0, 0, 0, 0, 0, 0, 0, 0, 0] := by decide +kernel
theorem test_decode_v15_swapped_sync :
    (nextOf (exec .decodeFrame (start (0x55 :: 0xAA :: List.replicate 9 0) 11#32))).map shown =
      some [2, 0, 0, 0, 0, 0, 0, 0, 0, 0] := by decide +kernel
theorem test_decode_v17_incomplete :
    (nextOf (exec .decodeFrame (start
      [0xAA, 0x55, 0x10, 0x01, 0x09, 0x30, 0x02, 0xFF, 0xFF, 0, 0, 0] 12#32))).map shown =
      some [3, 0x10, 1, 9, 0x3002, 0xFFFF, 9, 0, 0x1000A, 0] := by decide +kernel
theorem test_decode_v20_nack :
    (nextOf (exec .decodeFrame (start nack 12#32))).map shown =
      some [0x10, 0x10, 4, 7, 0x3001, 1, 9, 0x1905, 12, 0] := by decide +kernel
theorem test_decode_v18_beyond_length :
    (nextOf (exec .decodeFrame { decoded with a0 := 12#32 })).map shown =
      some [0x2110, 0x10, 0, 0, 0, 0, 9, 0xC10A, 11, 0] := by decide +kernel
/-- V22: the edges of the passthrough range. -/
theorem test_passthrough_edges :
    [0x7F#8, 0x80#8, 0xEF#8, 0xF0#8].map isPassthrough = [false, true, true, false] := by decide
/-- R147's example: cmd 0x3001 is group 0x30, id 0x01. -/
theorem test_group_and_id : (cmdGroup 0x3001#16, cmdId 0x3001#16) = (0x30#8, 0x01#8) := by decide
/-- S8: the pure decode of the Nack frame. -/
theorem test_pure_decode_nack :
    decodeView nack = .ok ⟨0x10, 4, 7, 0x3001, 1⟩ [0x03] 0x1905 12 := by decide +kernel
/-- S8: the host's frame for the Nack, with its checksum 0x1905. -/
theorem test_wire_frame_nack : wireFrame 4 7 0x3001 [0x03] = nack := by decide +kernel

/-! ### Ports, faults, VALID, reset (V26 to V32) -/

theorem test_illegal_command :
    (after (.regWr 0#6 0x05#32) State.reset).map (fun t => (t.cmd, statusWord t)) =
      some (0x05#32, 0x1100#32) := by decide +kernel
theorem test_first_cause_kept :
    (after (issue .crcBuf) { State.reset with a1 := 1#32, fault := true, fcause := some .illegalOp }).map
      statusWord = some 0x1100#32 := by decide +kernel
theorem test_read_only_writes_ignored :
    [0x01#6, 0x04#6, 0x07#6, 0x0C#6, 0x11#6].map (fun r => after (.regWr r 0x12345678#32) decoded) =
      List.replicate 5 (some decoded) := by decide +kernel
theorem test_length_at_capacity :
    (after (.regWr 6#6 65546#32) decoded).map (fun t => (t.fbLen, statusWord t)) =
      some (65546#32, 0#32) := by decide +kernel
theorem test_length_above_capacity :
    (after (.regWr 6#6 65547#32) decoded).map (fun t => (t.fbLen, statusWord t)) =
      some (11#32, 0x2110#32) := by decide +kernel
theorem test_buffer_write_at_capacity : after (.bufWr 0x1000A#32 0x77#8) decoded = some decoded := by
  decide +kernel
/-- V29 with FB_CAP = 12: address 11 is accepted whatever FB_LEN is. -/
theorem test_buffer_write_last_byte :
    (after (.bufWr 11#32 0x77#8) { decoded with config := ⟨12#32⟩ }).map
      (fun t => (t.fb.read 11, t.valid)) = some (some 0x77#8, false) := by decide +kernel
theorem test_buffer_read :
    (after (.bufRd 1#32) decoded).map (·.replies) = some [.bufData 0x55#8] := by decide +kernel
theorem test_buffer_read_at_capacity :
    (after (.bufRd 0x1000A#32) decoded).map (·.replies) = some [.bufData 0x00#8] := by decide +kernel
theorem test_same_bytes_clear_valid :
    (after (issue .stU16) { decoded with cw := 0xAA55#32 }).map (fun t => (t.fb, statusWord t)) =
      some (decoded.fb, 0#32) := by decide +kernel
theorem test_ten_byte_view_clears_valid :
    (after (issue .decodeFrame) { decoded with a0 := 1#32 }).map statusWord = some 0x1#32 := by
  decide +kernel
theorem test_illegal_keeps_valid :
    (after (.regWr 0#6 0x21#32) decoded).map statusWord = some 0x1110#32 := by decide +kernel
theorem test_register_read :
    (after (.regRd 1#6) decoded) = some { decoded with replies := [.regData 0x10#32] } := by decide +kernel
theorem test_reset :
    after .reset { decoded with crc := 0#16, fault := true, fcause := some .range } = some State.reset := by
  decide +kernel
/-- What the host's interface asks: the first command after reset. -/
theorem test_first_command_after_reset :
    (nextOf (step (State.reset.withFetchWord 32 0x20))).map (fun t => (t.cmd, statusWord t)) =
      some (0x20#32, 0x1#32) := by decide +kernel

/-! ### Host lines and pseudo-instructions (R82, R83) -/

theorem test_expand_crc_buf :
    ((Pseudo.crcBuf (.lit 0) (.lit 9)).expand.map (HostLine.access [])) =
      [some (.regWr 0x02#6 0#32), some (.regWr 0x03#6 9#32), some (.regWr 0x00#6 0x03#32)] := by decide +kernel
theorem test_expand_store_with_value :
    ((Pseudo.stU16 (.lit 5) (some (.lit 0x3001))).expand.map (HostLine.access [])) =
      [some (.regWr 0x05#6 0x3001#32), some (.regWr 0x02#6 5#32), some (.regWr 0x00#6 0x18#32)] := by
  decide +kernel
theorem test_expand_wbs :
    ((Pseudo.wbs (.lit 10) [0xAA, 0x55]).expand.map (HostLine.access [])) =
      [some (.bufWr 10#32 0xAA#8), some (.bufWr 11#32 0x55#8)] := by decide +kernel
/-- P3 step 8: `wb 19, $c & 0xFF` with $c = 0xA4B6 sends 0xB6. -/
theorem test_host_expression :
    HostLine.access [("c", 0xA4B6#32)] (.wb (.lit 19) (.and (.var "c") (.lit 0xFF))) =
      some (.bufWr 19#32 0xB6#8) := by decide +kernel
/-- `rd F_CRC -> $f` gives the variable the register's value. -/
theorem test_read_line :
    ((HostLine.rd .fCrc "f").run ⟨[], decoded⟩).map (·.vars) = some [("f", 0xC10A#32)] := by decide +kernel

/-! ### Witnesses: the hypotheses of each obligation can be met -/

theorem witness_not_an_opcode : ∀ i : Instr, 0x00000005#32 ≠ encode i := by
  intro i
  cases i <;> decide
theorem witness_DecodeAgreesWithEncode : ∀ i : Instr, 0xFFFFFFFF#32 ≠ encode i := by
  intro i
  cases i <;> decide
theorem witness_StepRunsTheIssuedCommand :
    ({ decoded with pending := [.regWr 0x00#6 0x20#32] } : State).pending = .regWr 0x00#6 0x20#32 :: [] ∧
      decode 0x20#32 = .ok .decodeFrame := ⟨rfl, rfl⟩
theorem witness_IllegalCommandRaisesIllegalOp :
    ({ decoded with pending := [.regWr 0x00#6 0x05#32] } : State).pending = .regWr 0x00#6 0x05#32 :: [] ∧
      ∀ i : Instr, 0x00000005#32 ≠ encode i := ⟨rfl, witness_not_an_opcode⟩
theorem witness_NothingHappensWithoutAnAccess : State.reset.pending = [] := rfl
theorem witness_NopChangesNothing :
    ({ decoded with pending := [.regWr 0x00#6 0#32] } : State).pending = .regWr 0x00#6 0#32 :: [] := rfl
theorem witness_CrcByteFoldsLowByte :
    ({ State.reset with a0 := 0x12345631#32 } : State).a0 = 0x123456#24 ++ 0x31#8 := by decide
/-- The state with FB and FB_LEN of `start bs len` and the operands A0, A1 and CW. -/
def operands (bs : List Byte) (len a0 a1 cw : Word) : State :=
  { start bs len with a0 := a0, a1 := a1, cw := cw }
/-- The whole buffer; and the empty range at its end. -/
theorem witness_CrcBufComputesCrc :
    (∃ s : State, s = operands digits 9 0 9 0 ∧ s.a0.toNat + s.a1.toNat ≤ s.fbLen.toNat) ∧
      ∃ s : State, s = operands digits 9 9 0 0 ∧ s.a0.toNat + s.a1.toNat ≤ s.fbLen.toNat :=
  ⟨⟨_, rfl, by decide⟩, _, rfl, by decide⟩
theorem witness_CrcAccContinuesCrc :
    ∃ s : State, s = operands digits 9 4 5 0 ∧ s.a0.toNat + s.a1.toNat ≤ s.fbLen.toNat := ⟨_, rfl, by decide⟩
theorem witness_SplitRangeGivesSameCrc : 0 + 4 + 5 ≤ (start digits 9#32).fbLen.toNat := by decide
theorem witness_CrcBufEqualsByteByByte :
    ∃ s : State, s = operands digits 9 0 9 0 ∧ s.a0.toNat + s.a1.toNat ≤ s.fbLen.toNat ∧
      digits.length = s.a1.toNat ∧ Holds s.fb s.a0.toNat digits := by
  refine ⟨_, rfl, by decide, by decide, ?_⟩
  unfold Holds
  decide
theorem witness_OneChangedByteChangesCrc : (0xDE#8 : Byte) ≠ 0xBE#8 := by decide
/-- The last legal offset of a 2-byte and of a 4-byte access. -/
theorem witness_LoadU16ZeroExtends :
    ∃ s : State, s = operands digits 9 7 0 0 ∧ s.a0.toNat + 2 ≤ s.fbLen.toNat := ⟨_, rfl, by decide⟩
/-- A negative and a positive value. -/
theorem witness_LoadI16SignExtends :
    ∃ s : State, s = operands [0x80, 0, 0x7F, 0xFF] 4 2 0 0 ∧ s.a0.toNat + 2 ≤ s.fbLen.toNat ∧
      (byteRead s.fb s.draws s.a0.toNat 0).msb = false ∧
      ({ s with a0 := 0 } : State).a0.toNat + 2 ≤ s.fbLen.toNat ∧ (byteRead s.fb s.draws 0 0).msb = true :=
  ⟨_, rfl, by decide +kernel⟩
theorem witness_LoadF32CopiesPattern :
    ∃ s : State, s = operands digits 9 5 0 0 ∧ s.a0.toNat + 4 ≤ s.fbLen.toNat := ⟨_, rfl, by decide⟩
theorem witness_Store16WritesTwoBytes :
    ∃ s : State, s = operands digits 9 7 0 0x00012345 ∧ (Instr.stU16 = .stU16 ∨ Instr.stU16 = .stI16) ∧
      (Instr.stI16 = .stU16 ∨ Instr.stI16 = .stI16) ∧ s.cw = 0x0001#16 ++ (0x23#8 ++ 0x45#8) ∧
      s.a0.toNat + 2 ≤ s.fbLen.toNat ∧
      ({ s with a0 := 8 } : State).fbLen.toNat < ({ s with a0 := 8 } : State).a0.toNat + 2 :=
  ⟨_, rfl, by decide⟩
theorem witness_StoreF32WritesFourBytes :
    ∃ s : State, s = operands digits 9 5 0 0x41200000 ∧ s.cw = 0x41#8 ++ 0x20#8 ++ 0x00#8 ++ 0x00#8 ∧
      s.a0.toNat + 4 ≤ s.fbLen.toNat ∧
      ({ s with a0 := 6 } : State).fbLen.toNat < ({ s with a0 := 6 } : State).a0.toNat + 4 :=
  ⟨_, rfl, by decide⟩
theorem witness_ConversionsAreInverse :
    ([0xFF, 0xFE] : List Byte).length = 2 ∧ ([0x7F, 0xC0, 0, 1] : List Byte).length = 4 := by decide
theorem witness_StoreThenLoadRoundTrips :
    (∃ s : State, s = operands digits 9 5 0 0 ∧ s.a0.toNat + 4 ≤ s.fbLen.toNat) ∧
      ∃ s : State, s = operands digits 9 7 0 0 ∧ s.a0.toNat + 2 ≤ s.fbLen.toNat :=
  ⟨⟨_, rfl, by decide⟩, _, rfl, by decide⟩
theorem witness_LoadThenStoreRewritesSameBytes :
    (∃ s : State, s = operands digits 9 7 0 0 ∧ s.fb.wf ∧ Holds s.fb s.a0.toNat [0x38, 0x39] ∧
        s.a0.toNat + ([0x38, 0x39] : List Byte).length ≤ s.fbLen.toNat) ∧
      ∃ s : State, s = operands digits 9 5 0 0 ∧ s.fb.wf ∧ Holds s.fb s.a0.toNat [0x36, 0x37, 0x38, 0x39] ∧
        s.a0.toNat + ([0x36, 0x37, 0x38, 0x39] : List Byte).length ≤ s.fbLen.toNat := by
  unfold Holds
  exact ⟨⟨_, rfl, by decide⟩, _, rfl, by decide⟩
theorem witness_FloatReadsBackAsTwoHalves :
    ∃ s : State, s = operands digits 9 5 0 0x42B40000 ∧ s.cw = 0x42B4#16 ++ 0x0000#16 ∧
      s.a0.toNat + 4 ≤ s.fbLen.toNat := ⟨_, rfl, by decide⟩
/-- One byte past the last legal range, for each clause: CRC_BUF, 2 bytes, 4 bytes, DECODE. -/
theorem witness_OutOfRangeCommandFaults :
    (∃ s : State, s = operands digits 9 5 5 0 ∧ s.fbLen.toNat < s.a0.toNat + s.a1.toNat) ∧
      (∃ s : State, s = operands digits 9 8 0 0 ∧ s.fbLen.toNat < s.a0.toNat + 2) ∧
      (∃ s : State, s = operands digits 9 6 0 0 ∧ s.fbLen.toNat < s.a0.toNat + 4) ∧
      ∃ s : State, s = operands digits 9 10 0 0 ∧ s.fbLen.toNat < s.a0.toNat + 0 :=
  ⟨⟨_, rfl, by decide⟩, ⟨_, rfl, by decide⟩, ⟨_, rfl, by decide⟩, _, rfl, by decide⟩
/-- A view of 10 bytes and an empty one. -/
theorem witness_DecodeTooShort :
    (∃ s : State, s = operands smallest 11 1 0 0 ∧ s.a0.toNat ≤ s.fbLen.toNat ∧
        s.fbLen.toNat - s.a0.toNat < 11) ∧
      ∃ s : State, s = operands smallest 11 11 0 0 ∧ s.a0.toNat ≤ s.fbLen.toNat ∧
        s.fbLen.toNat - s.a0.toNat < 11 := ⟨⟨_, rfl, by decide⟩, _, rfl, by decide⟩
theorem witness_DecodeBadSync :
    ∃ s : State, s = operands (0xAA :: 0x54 :: List.replicate 9 0) 11 0 0 0 ∧
      s.a0.toNat + 11 ≤ s.fbLen.toNat ∧
      ¬(byteRead s.fb s.draws s.a0.toNat 0 = 0xAA#8 ∧ byteRead s.fb s.draws s.a0.toNat 1 = 0x55#8) :=
  ⟨_, rfl, by decide +kernel⟩
/-- The Nack frame one byte short (V19). -/
theorem witness_DecodeIncomplete :
    ∃ s : State, s = operands nack 11 0 0 0 ∧ byteRead s.fb s.draws s.a0.toNat 0 = 0xAA#8 ∧
      byteRead s.fb s.draws s.a0.toNat 1 = 0x55#8 ∧
      0x0001#16 = byteRead s.fb s.draws s.a0.toNat 7 ++ byteRead s.fb s.draws s.a0.toNat 8 ∧
      s.a0.toNat + 11 ≤ s.fbLen.toNat ∧ s.fbLen.toNat < s.a0.toNat + 11 + (0x0001#16).toNat :=
  ⟨_, rfl, by decide +kernel⟩
/-- The Nack frame whole (V20). -/
theorem witness_DecodeOk :
    ∃ s : State, s = operands nack 12 0 0 0 ∧ byteRead s.fb s.draws s.a0.toNat 0 = 0xAA#8 ∧
      byteRead s.fb s.draws s.a0.toNat 1 = 0x55#8 ∧
      0x0001#16 = byteRead s.fb s.draws s.a0.toNat 7 ++ byteRead s.fb s.draws s.a0.toNat 8 ∧
      s.a0.toNat + 11 + (0x0001#16).toNat ≤ s.fbLen.toNat := ⟨_, rfl, by decide +kernel⟩
theorem witness_PureDecodeLaws :
    (List.replicate 10 0xAA#8).length ≤ 10 ∧ 9 ≤ (List.replicate 9 0#8).length ∧
      ¬(0xAA#8 = 0xAA#8 ∧ 0x54#8 = 0x55#8) ∧
      (2 ≤ (List.replicate 2 0#8).length ∧ (List.replicate 2 0#8).length < 2 + (0#8 ++ 1#8 : Half).toNat) ∧
      ([0x03#8] : List Byte).length = (0#8 ++ 1#8 : Half).toNat := by decide
theorem witness_BuiltFrameDecodesToItself : (List.replicate 65535 0#8).length ≤ 65535 :=
  Nat.le_of_eq List.length_replicate
theorem witness_DecodeRefinesPureDecode :
    ∃ s : State, s = operands nack 12 0 0 0 ∧ s.a0.toNat ≤ s.fbLen.toNat ∧
      nack.length = s.fbLen.toNat - s.a0.toNat ∧ Holds s.fb s.a0.toNat nack := by
  unfold Holds
  exact ⟨_, rfl, by decide⟩
/-- Ok: two memories that differ in the payload byte (address 9) only. -/
theorem witness_DecodeNeverReadsThePayload :
    (start nack 12#32).fb.read 9 ≠ ((start nack 12#32).fb.write 9 0x07).read 9 ∧
      ∀ a, DecodeReads (start nack 12#32) a →
        ((start nack 12#32).fb.write 9 0x07).read a = (start nack 12#32).fb.read a := by
  refine ⟨by decide +kernel, fun a ha => ?_⟩
  have h0 : (start nack 12#32).a0.toNat = 0 := rfl
  rw [Memory.read_write, if_neg]
  cases ha with
  | sync _ here => omega
  | header _ _ here => omega
  | crc len declared _ _ here =>
    have : len.toNat = 1 := by rw [declared]; decide +kernel
    omega
/-- TooShort: two memories that share no byte. -/
theorem witness_DecodeNeverReadsThePayload_tooShort :
    (start nack 10#32).fb ≠ [] ∧
      ∀ a, DecodeReads (start nack 10#32) a → Memory.read [] a = (start nack 10#32).fb.read a := by
  have hl : (start nack 10#32).fbLen.toNat = 10 := rfl
  refine ⟨by decide, fun a ha => ?_⟩
  cases ha <;> omega
/-- BadSync: two memories that differ in a header byte (address 2). -/
theorem witness_DecodeNeverReadsThePayload_badSync :
    (start digits 11#32).fb.read 2 ≠ ((start digits 11#32).fb.write 2 0x07).read 2 ∧
      ∀ a, DecodeReads (start digits 11#32) a →
        ((start digits 11#32).fb.write 2 0x07).read a = (start digits 11#32).fb.read a := by
  refine ⟨by decide +kernel, fun a ha => ?_⟩
  have h0 : (start digits 11#32).a0.toNat = 0 := rfl
  have hs : byteRead (start digits 11#32).fb (start digits 11#32).draws (start digits 11#32).a0.toNat 0 ≠ sync1 := by
    decide +kernel
  rw [Memory.read_write, if_neg]
  cases ha with
  | sync _ here => omega
  | header _ sync _ => exact absurd sync.1 hs
  | crc _ _ _ sync _ => exact absurd sync.1 hs
/-- V17 with FB_CAP = 12: the largest declared length, for ever incomplete. -/
theorem witness_OversizedFrameStaysIncomplete :
    ∃ s : State,
      s = { operands [0xAA, 0x55, 0x10, 0x01, 0x09, 0x30, 0x02, 0xFF, 0xFF, 0, 0, 0] 12 0 0 0 with
        config := ⟨12⟩ } ∧
      s.config.fbCap.toNat < s.a0.toNat + 11 + (0xFF#8 ++ 0xFF#8 : Half).toNat ∧
      Holds s.fb s.a0.toNat [0xAA, 0x55, 0x10, 0x01, 0x09, 0x30, 0x02, 0xFF, 0xFF] ∧
      s.fbLen.toNat ≤ s.config.fbCap.toNat ∧ s.a0.toNat + 11 ≤ s.fbLen.toNat := by
  unfold Holds
  exact ⟨_, rfl, by decide⟩
theorem witness_HostVerifiesBuiltFrame :
    ∃ s : State, s = operands nack 12 0 0 0 ∧ ([0x03#8] : List Byte).length ≤ 65535 ∧
      s.a0.toNat + 11 + ([0x03#8] : List Byte).length ≤ s.fbLen.toNat ∧
      Holds s.fb s.a0.toNat (wireFrame 4 7 0x3001 [0x03]) := by
  rw [test_wire_frame_nack]
  unfold Holds
  exact ⟨_, rfl, by decide⟩
/-- The first and the last reserved index. -/
theorem witness_RegisterMapReads : 0x11 ≤ (0x11#6).toNat ∧ 0x11 ≤ (0x3F#6).toNat := by decide
theorem witness_RegisterReadChangesNothing :
    ({ decoded with pending := [.regRd 0x3F#6] } : State).pending = .regRd 0x3F#6 :: [] := rfl
theorem witness_RegisterWritesStoreOrAreIgnored :
    ({ decoded with pending := [.regWr 0x11#6 5#32] } : State).pending = .regWr 0x11#6 5#32 :: [] ∧
      (0x02#6 = 0x02#6 ∧ 0x03#6 = 0x03#6 ∧ 0x05#6 = 0x05#6) ∧
      (0x01#6).toNat = 1 ∧ (0x04#6).toNat = 4 ∧ 7 ≤ (0x07#6).toNat ∧ 7 ≤ (0x3F#6).toNat := by decide
/-- V28: at FB_CAP and one above. -/
theorem witness_LengthWriteIsChecked :
    (65546#32).toNat ≤ decoded.config.fbCap.toNat ∧ decoded.config.fbCap.toNat < (65547#32).toNat := by decide
/-- V29: the last address and the first one beyond. -/
theorem witness_BufferWriteStoresBelowCapacity :
    (0x10009#32).toNat < decoded.config.fbCap.toNat ∧ decoded.config.fbCap.toNat ≤ (0x1000A#32).toNat := by
  decide
theorem witness_BufferReadReturnsTheByte :
    ((0#32).toNat < decoded.config.fbCap.toNat ∧ decoded.fb.read 0 = some 0xAA#8) ∧
      ((0x10009#32).toNat < decoded.config.fbCap.toNat ∧ decoded.fb.read 0x10009 = none) ∧
      decoded.config.fbCap.toNat ≤ (0x1000A#32).toNat := by decide +kernel
theorem witness_ResetAccessSetsResetValues :
    ({ decoded with pending := [.reset] } : State).pending = .reset :: [] := rfl
theorem witness_InvariantsHoldAtReset : (Config.mk 11#32).wellFormed = true := by decide

/-- A state with VALID = 1 meets the invariant. -/
theorem decoded_inv : decoded.Inv := by
  refine ⟨by decide, by decide, by decide, by decide, rfl, by decide, fun _ => ⟨rfl, ?_, ?_, ?_⟩⟩ <;> decide

/-- … and its header and checksum bytes are those the registers show. -/
theorem decoded_viewSound : ViewSound decoded := by
  refine fun _ => ⟨⟨rfl, by decide, by decide, by decide⟩, ?_, ?_⟩ <;>
  · intro i h b hb
    have hi : i < 9 := lt_of_lt_of_le h (by decide)
    interval_cases i <;>
      first | exact (Option.some.inj hb).symm | exact absurd h (by decide)

/-- `decoded` with one access pending. -/
def waiting (a : Access) : State := { decoded with pending := [a] }

/-- VALID = 1, and the frame's bytes stand at F_POFF - 9. -/
theorem witness_HostVerifiesBuiltFrame_valid :
    decoded.valid = true ∧ ViewSound decoded ∧ smallest.length = 11 + decoded.fLen.toNat ∧
      Holds decoded.fb (decoded.fPoff.toNat - 9) smallest := by
  refine ⟨rfl, decoded_viewSound, rfl, ?_⟩
  unfold Holds
  decide

theorem witness_StepKeepsInvariant :
    decoded.Inv ∧ step decoded = .next decoded := ⟨decoded_inv, rfl⟩
theorem witness_StepKeepsValidViewSound :
    ViewSound decoded ∧ step decoded = .next decoded := ⟨decoded_viewSound, rfl⟩
theorem witness_AccessesRunInIssueOrder :
    Next (waiting (.regRd 1#6)) (.regRd 1#6) [] ∧
      step (waiting (.regRd 1#6)) = .next { decoded with replies := [.regData 0x10#32] } := ⟨rfl, rfl⟩
theorem witness_FaultIsStickyUntilReset :
    ({ decoded with fault := true, fcause := some .range } : State).fault = true ∧
      (∀ rest, ¬Next ({ decoded with fault := true, fcause := some .range } : State) .reset rest) ∧
      step ({ decoded with fault := true, fcause := some .range } : State) =
        .next { decoded with fault := true, fcause := some .range } :=
  ⟨rfl, fun _ h => (by cases h), rfl⟩
/-- Each row of the table of causes can be met: an illegal value, a range, a length. -/
theorem witness_FaultsAreExactlyTheTable :
    decoded.fault = false ∧ Raises decoded (.regWr 0x00#6 0x05#32) .illegalOp ∧
      Raises { decoded with a0 := 10#32 } (issue .ldU16) .range ∧
      Raises decoded (.regWr 0x06#6 65547#32) .range ∧
      Next (waiting (.regWr 0x06#6 65547#32)) (.regWr 0x06#6 65547#32) [] ∧
      step (waiting (.regWr 0x06#6 65547#32)) =
        .next { decoded with fault := true, fcause := some .range } :=
  ⟨rfl, .illegal _ witness_not_an_opcode, .range .ldU16 2 rfl (by decide), .length _ (by decide), rfl, rfl⟩
theorem witness_FaultsArePrecise :
    Next (waiting (.regWr 0x00#6 0x05#32)) (.regWr 0x00#6 0x05#32) [] ∧
      Raises (waiting (.regWr 0x00#6 0x05#32)) (.regWr 0x00#6 0x05#32) .illegalOp :=
  ⟨rfl, .illegal _ witness_not_an_opcode⟩
/-- The faulting clause: a write above FB_CAP to FB_LEN, with VALID = 1. -/
theorem witness_ValidChangesOnlyByTheRule_fault :
    Next (waiting (.regWr 0x06#6 65547#32)) (.regWr 0x06#6 65547#32) [] ∧
      (∃ c, Raises (waiting (.regWr 0x06#6 65547#32)) (.regWr 0x06#6 65547#32) c) ∧
      (waiting (.regWr 0x06#6 65547#32)).valid = true ∧
      step (waiting (.regWr 0x06#6 65547#32)) =
        .next { decoded with fault := true, fcause := some .range } :=
  ⟨rfl, ⟨_, .length _ (by decide)⟩, rfl, rfl⟩
/-- A DECODE, an access that changes the view, and one that does neither, none of them raising a fault. -/
theorem witness_ValidChangesOnlyByTheRule :
    Next (waiting (.bufWr 0x40#32 0#8)) (.bufWr 0x40#32 0#8) [] ∧
      Changes decoded (.bufWr 0x40#32 0#8) ∧ (¬∃ c, Raises decoded (.bufWr 0x40#32 0#8) c) ∧
      (¬∃ c, Raises decoded (issue .decodeFrame) c) ∧
      (¬∃ c, Raises decoded (.regRd 1#6) c) ∧ (.regRd 1#6 ≠ issue .decodeFrame) ∧
      ¬Changes decoded (.regRd 1#6) := by
  refine ⟨rfl, .bufWr _ _ (by decide), fun ⟨c, h⟩ => (by cases h), fun ⟨c, h⟩ => ?_, fun ⟨c, h⟩ => (by cases h),
    by decide, fun h => (by cases h)⟩
  obtain ⟨n, hn, hl⟩ := range_of_raises h
  obtain rfl : 0 = n := Option.some.inj hn
  exact absurd hl (by decide)
theorem witness_OperandRegistersHaveTheirWriters :
    Next (waiting (.regWr 2#6 7#32)) (.regWr 2#6 7#32) [] ∧
      step (waiting (.regWr 2#6 7#32)) = .next { decoded with a0 := 7#32 } ∧
      ({ decoded with a0 := 7#32 } : State).a0 ≠ (waiting (.regWr 2#6 7#32)).a0 :=
  ⟨rfl, rfl, by decide⟩
theorem witness_ResultRegistersHaveOneWriter :
    Next (waiting (issue .nop)) (issue .nop) [] ∧ step (waiting (issue .nop)) = .next decoded ∧
      issue .nop ≠ issue .decodeFrame ∧ issue .nop ≠ .reset := ⟨rfl, rfl, by decide, by decide⟩
theorem witness_BytesChangeOnlyByWrites :
    Next (waiting .reset) .reset [] ∧ step (waiting .reset) = .next State.reset ∧
      State.reset.fb.read 0 ≠ (waiting .reset).fb.read 0 := ⟨rfl, rfl, by decide⟩
/-- The host expressions of P3: `$p - 7` and `7 + $n` with $p = 9, $n = 1. -/
theorem witness_PseudoInstructionsExpand :
    (HostExpr.sub (.var "p") (.lit 7)).eval [("p", 9), ("n", 1)] = some 2#32 ∧
      (HostExpr.add (.lit 7) (.var "n")).eval [("p", 9), ("n", 1)] = some 8#32 := by decide
/-- Two memories that agree below FB_LEN = 11 and differ above. -/
theorem witness_CommandsReachOnlyBelowLength :
    (∀ a, a < decoded.fbLen.toNat → (decoded.fb.write 20 5).read a = decoded.fb.read a) ∧
      (decoded.fb.write 20 5).read 20 ≠ decoded.fb.read 20 := by
  have hl : decoded.fbLen.toNat = 11 := rfl
  refine ⟨fun a ha => ?_, by decide +kernel⟩
  rw [Memory.read_write, if_neg (by omega)]

end Sys2Proof.Tests
end

section
/-! The power-on state (R190) and the invariant of the state: the invariant holds after reset, each operation
on the state keeps it, and so does every step. -/

namespace Sys2Proof.Machine

/-! ### What the registers read after reset -/

/-- The register map of R22 lists its registers in the order of their indices. -/
theorem registerMap_index : registerMap.map RegName.index = (List.range 17).map (BitVec.ofNat 6) := by
  decide

/-- A register is found at its own index only (R22). -/
theorem eq_index_of_ofIndex {r : RegIndex} {n : RegName} (h : RegName.ofIndex r = some n) :
    r = n.index := by
  have hmap : (registerMap.map RegName.index)[r.toNat]? = some n.index := by
    rw [List.getElem?_map, show registerMap[r.toNat]? = some n from h, Option.map_some]
  obtain ⟨hlt, heq⟩ := List.getElem?_eq_some_iff.mp hmap
  simpa [registerMap_index] using heq

/-- STATUS after reset: result Ok, VALID 0, FAULT 0, no cause (R25, R190). -/
theorem statusWord_resetWith (c : Config) : statusWord (State.resetWith c) = 0#32 := by
  simp [statusWord, State.resetWith, ResultCode.code, fcauseCode, bitWord]

/-- After reset every named register but CRC and FB_CAP reads 0 (R22, R190). -/
theorem readReg_resetWith (c : Config) {n : RegName} (hcrc : n ≠ .crc) (hcap : n ≠ .fbCap) :
    readReg (State.resetWith c) n = 0#32 := by
  cases n
  case crc => exact absurd rfl hcrc
  case fbCap => exact absurd rfl hcap
  case status => exact statusWord_resetWith c
  all_goals rfl

/-- After reset every index but those of CRC and FB_CAP reads 0, the reserved ones included (R23, R190). -/
theorem regValue_resetWith (c : Config) {r : RegIndex} (hcrc : r ≠ 0x04#6) (hcap : r ≠ 0x07#6) :
    regValue (State.resetWith c) r = 0#32 := by
  unfold regValue
  split
  · next n hn =>
    have hr : r = n.index := eq_index_of_ofIndex hn
    exact readReg_resetWith c (fun h => hcrc (by rw [hr, h]; rfl)) (fun h => hcap (by rw [hr, h]; rfl))
  · rfl

/-! ### The invariants at reset -/

/-- F_TYPE 0 is no pass-through type (R148), so PT is 0 where the F_ registers are. -/
theorem isPassthrough_zero : isPassthrough 0#8 = false := by decide

/-- The reset state of an FCU with a legal FB_CAP meets the invariant (R7, R190). -/
theorem resetWith_inv {c : Config} (hc : c.wellFormed = true) : (State.resetWith c).Inv where
  config_ok := hc
  len_le_cap := Nat.zero_le _
  fb_wf := List.Pairwise.nil
  fb_below := fun _ hcell => absurd hcell List.not_mem_nil
  cause := rfl
  pt := isPassthrough_zero.symm
  view := fun hvalid => absurd hvalid Bool.false_ne_true

/-- After reset VALID is 0, so there is no view to be sound. -/
theorem resetWith_viewSound (c : Config) : ViewSound (State.resetWith c) :=
  fun hvalid => absurd hvalid Bool.false_ne_true

/-! ### What each operation does to the invariant -/

section
variable {s : State}

/-- The invariant does not read CMD, the operand registers, CRC or the model's own fields. -/
theorem inv_of_otherFields (hs : s.Inv) {cmd a0 a1 cw : Word} {crc : Half} {draws : Nat}
    {pending : List Access} {replies : List Reply} :
    State.Inv { s with
      cmd := cmd, a0 := a0, a1 := a1, cw := cw, crc := crc, draws := draws
      pending := pending, replies := replies } where
  config_ok := hs.config_ok
  len_le_cap := hs.len_le_cap
  fb_wf := hs.fb_wf
  fb_below := hs.fb_below
  cause := hs.cause
  pt := hs.pt
  view := fun hvalid =>
    have hv : ViewInside s := hs.view hvalid
    ⟨hv.result_ok, hv.after_header, hv.inside, hv.consumed⟩

/-- A fault sets FAULT together with a cause and leaves the view alone (R170). -/
theorem raiseFault_keeps_inv (c : FaultCause) (hs : s.Inv) : (raiseFault c s).Inv where
  config_ok := hs.config_ok
  len_le_cap := hs.len_le_cap
  fb_wf := hs.fb_wf
  fb_below := hs.fb_below
  cause := by
    show true = (if s.fault = true then s.fcause else some c).isSome
    split
    · next hfault => rw [← hs.cause, hfault]
    · rfl
  pt := hs.pt
  view := fun hvalid =>
    have hv : ViewInside s := hs.view hvalid
    ⟨hv.result_ok, hv.after_header, hv.inside, hv.consumed⟩

/-- Changing FB_LEN and FB within the capacity keeps the invariant once VALID is cleared (R26, R32, R50). -/
theorem clearValid_keeps_inv (hs : s.Inv) {len : Word} {fb : Memory}
    (hlen : len.toNat ≤ s.config.fbCap.toNat) (hwf : fb.wf) (hbelow : fb.below s.config.fbCap.toNat) :
    (clearValid { s with fbLen := len, fb := fb }).Inv where
  config_ok := hs.config_ok
  len_le_cap := hlen
  fb_wf := hwf
  fb_below := hbelow
  cause := hs.cause
  pt := hs.pt
  view := fun hvalid => absurd hvalid Bool.false_ne_true

/-- A store below FB_LEN stays below FB_CAP, so it keeps the invariant (R50). -/
theorem memWrite_keeps_inv (hs : s.Inv) {a : Nat} {bs : List Byte} (h : a + bs.length ≤ s.fbLen.toNat) :
    (memWrite s a bs).Inv :=
  clearValid_keeps_inv hs hs.len_le_cap (Memory.writeBytes_wf hs.fb_wf a bs)
    (Memory.writeBytes_below hs.fb_below a bs (h.trans hs.len_le_cap))

/-- The reset access keeps the configuration, and the rest is the power-on state (R190, R191). -/
theorem hostReset_keeps_inv (hs : s.Inv) : (hostReset s).Inv :=
  inv_of_otherFields (resetWith_inv hs.config_ok)

/-! ### DECODE -/

/-- A frame that parses Ok fits in the view (R140). -/
theorem frameLen_le_of_parseFb_ok {fb : Memory} {draws base L : Nat} {h : Header} {crc : Half}
    (hp : (parseFb fb draws base L).1 = .ok h crc) : h.frameLen ≤ L := by
  simp only [parseFb] at hp
  split_ifs at hp with hshort hsync hincomplete
  obtain ⟨rfl, -⟩ := Parse.ok.inj hp
  exact Nat.le_of_not_lt hincomplete

/-- The registers written after an Ok parse describe a frame inside FB (R142, R35). -/
theorem recordParse_ok_viewInside {base : Nat} {h : Header} {crc : Half}
    (hfit : base + h.frameLen ≤ s.fbLen.toNat) : ViewInside (recordParse base (.ok h crc) s) := by
  have hlen := s.fbLen.isLt
  simp only [Header.frameLen, headerSize, checksumSize] at hfit
  have hpoff : (BitVec.ofNat 32 (base + headerSize)).toNat = base + headerSize :=
    Nat.mod_eq_of_lt (by simp only [headerSize]; omega)
  have hcons : (BitVec.ofNat 32 h.frameLen).toNat = h.frameLen :=
    Nat.mod_eq_of_lt (by simp only [Header.frameLen, headerSize, checksumSize]; omega)
  refine ⟨rfl, ?_, ?_, ?_⟩
  · show headerSize ≤ (BitVec.ofNat 32 (base + headerSize)).toNat
    omega
  · show (BitVec.ofNat 32 (base + headerSize)).toNat + h.len.toNat + checksumSize ≤ s.fbLen.toNat
    rw [hpoff]
    simp only [headerSize, checksumSize]
    omega
  · show (BitVec.ofNat 32 h.frameLen).toNat = headerSize + h.len.toNat + checksumSize
    exact hcons

/-- Recording a parse keeps the invariant when an Ok frame fits below FB_LEN (R142 to R144, R148). -/
theorem recordParse_keeps_inv (hs : s.Inv) {base : Nat} {p : Parse}
    (hfit : ∀ h crc, p = .ok h crc → base + h.frameLen ≤ s.fbLen.toNat) :
    (recordParse base p s).Inv where
  config_ok := by simpa using hs.config_ok
  len_le_cap := by simpa using hs.len_le_cap
  fb_wf := by simpa using hs.fb_wf
  fb_below := by simpa using hs.fb_below
  cause := by simpa using hs.cause
  pt := by
    cases p
    case tooShort | badSync => exact isPassthrough_zero.symm
    case incomplete | ok => rfl
  view := fun hvalid => by
    cases p
    case ok h crc => exact recordParse_ok_viewInside (hfit h crc rfl)
    all_goals exact absurd hvalid Bool.false_ne_true

/-- DECODE at a base up to FB_LEN keeps the invariant (R141). -/
theorem decodeAt_keeps_inv (hs : s.Inv) {base : Nat} (hbase : base ≤ s.fbLen.toNat) :
    (decodeAt s base).Inv := by
  refine recordParse_keeps_inv (inv_of_otherFields hs) fun h crc hp => ?_
  have hfit : h.frameLen ≤ s.fbLen.toNat - base := frameLen_le_of_parseFb_ok hp
  show base + h.frameLen ≤ s.fbLen.toNat
  omega

end

/-! ### One access, one step -/

/-- Every host access keeps the invariant. -/
theorem performAccess_keeps_inv {s t : State} {a : Access} (hs : s.Inv)
    (h : performAccess a s = .next t) : t.Inv := by
  have hcmd (v : Word) : State.Inv { s with cmd := v } := inv_of_otherFields hs
  rcases performAccess_cases h with ⟨c, -, hfault⟩ | ⟨-, heffect⟩
  · rcases hfault with ⟨-, v, -, rfl⟩ | ⟨-, i, -, rfl⟩ | ⟨-, v, -, rfl⟩
    · exact raiseFault_keeps_inv c (hcmd v)
    · exact raiseFault_keeps_inv c (hcmd (encode i))
    · exact raiseFault_keeps_inv c hs
  · rcases heffect with
      ⟨i, -, -, rfl⟩ | ⟨i, crc, d, -, -, rfl⟩ | ⟨i, w, d, -, -, rfl⟩ | ⟨i, bs, -, -, -, hrange, rfl⟩ |
      ⟨-, hbase, rfl⟩ | ⟨v, -, rfl⟩ | ⟨v, -, rfl⟩ | ⟨v, -, rfl⟩ | ⟨v, -, hv, rfl⟩ | ⟨r, v, -, -, rfl⟩ |
      ⟨r, -, rfl⟩ | ⟨p, b, -, hp, rfl⟩ | ⟨p, b, -, -, rfl⟩ | ⟨p, b, d, -, rfl⟩ | ⟨-, rfl⟩
    · exact hcmd (encode i)
    · exact inv_of_otherFields hs
    · exact inv_of_otherFields hs
    · exact memWrite_keeps_inv (hcmd (encode i)) hrange
    · exact decodeAt_keeps_inv (hcmd (encode .decodeFrame)) hbase
    · exact inv_of_otherFields hs
    · exact inv_of_otherFields hs
    · exact inv_of_otherFields hs
    · exact clearValid_keeps_inv hs hv hs.fb_wf hs.fb_below
    · exact hs
    · exact inv_of_otherFields hs
    · exact clearValid_keeps_inv hs hs.len_le_cap (Memory.write_wf hs.fb_wf p.toNat b)
        (Memory.write_below hs.fb_below hp b)
    · exact hs
    · exact inv_of_otherFields hs
    · exact hostReset_keeps_inv hs

/-- Every step keeps the invariant: it performs the next access, or nothing (R20, R60). -/
theorem step_keeps_inv {s t : State} (hs : s.Inv) (h : step s = .next t) : t.Inv := by
  cases hp : s.pending with
  | nil =>
    obtain rfl : s = t := Host.Outcome.next.inj ((step_nil hp).symm.trans h)
    exact hs
  | cons a rest =>
    have hperf : performAccess a { s with pending := rest } = .next t := step_cases hp h
    exact performAccess_keeps_inv (inv_of_otherFields hs) hperf

/-! ### The obligations -/

/-- Settles O47, by what each access can do. -/
theorem stepKeepsInvariant : Obligations.StepKeepsInvariant :=
  fun _ _ => step_keeps_inv

/-- Settles O45: CRC and FB_CAP are read off, every other index by `regValue_resetWith`. -/
theorem powerOnState : Obligations.PowerOnState :=
  ⟨rfl, rfl, fun _ hcrc hcap => regValue_resetWith Config.default hcrc hcap, fun _ => rfl, rfl, rfl⟩

/-- Settles O46: the default FB_CAP is a legal one. -/
theorem invariantsHoldAtReset : Obligations.InvariantsHoldAtReset :=
  ⟨resetWith_inv (by decide), resetWith_viewSound Config.default,
    fun c hc => ⟨resetWith_inv hc, resetWith_viewSound c⟩⟩

end Sys2Proof.Machine
end

section
/-! The register port (R22 to R25, R29, R31, R32): what a read of each index returns, and what one step on a read or
a write of it does. -/

namespace Sys2Proof.Machine

/-! ### STATUS -/

theorem getLsbD_bitWord (b : Bool) (i : Nat) : (bitWord b).getLsbD i = (decide (i = 0) && b) := by
  cases b
  · simp [bitWord]
  · simp [bitWord, BitVec.getLsbD_one]

/-- A Boolean field shifted to bit `k` sets that bit only. -/
theorem getLsbD_bitWord_shiftLeft (b : Bool) {k i : Nat} (hi : i < 32) :
    (bitWord b <<< k).getLsbD i = (decide (i = k) && b) := by
  rw [BitVec.getLsbD_shiftLeft, getLsbD_bitWord]
  rcases Nat.lt_trichotomy i k with hlt | rfl | hgt
  · simp [hlt, hlt.ne]
  · simp [hi]
  · simp [hgt.ne', show i - k ≠ 0 by omega]

/-- STATUS bit by bit (R25). -/
theorem getLsbD_statusWord (s : State) {i : Nat} (hi : i < 32) :
    (statusWord s).getLsbD i =
      (s.result.code.getLsbD i || (decide (i = 4) && s.valid) || (decide (i = 8) && s.fault) ||
        (!decide (i < 12) && (fcauseCode s.fcause).getLsbD (i - 12))) := by
  simp only [statusWord, BitVec.getLsbD_or, getLsbD_bitWord_shiftLeft _ hi]
  simp [hi]

/-- Bits of STATUS that belong to no field read 0. -/
theorem extractLsb'_statusWord_unused (s : State) {k n : Nat}
    (h : 4 < k ∧ k + n ≤ 8 ∨ 8 < k ∧ k + n ≤ 12 ∨ 16 ≤ k ∧ k + n ≤ 32) :
    (statusWord s).extractLsb' k n = 0#n := by
  ext i hi
  rw [BitVec.getElem_extractLsb', getLsbD_statusWord s (by omega)]
  have hresult : s.result.code.getLsbD (k + i) = false := BitVec.getLsbD_of_ge _ _ (by omega)
  have hcause : (!decide (k + i < 12) && (fcauseCode s.fcause).getLsbD (k + i - 12)) = false := by
    rcases Nat.lt_or_ge (k + i) 12 with hlt | hge
    · simp [hlt]
    · simp [BitVec.getLsbD_of_ge (fcauseCode s.fcause) (k + i - 12) (by omega)]
  rw [hresult, hcause]
  simp [show k + i ≠ 4 by omega, show k + i ≠ 8 by omega]

theorem extractLsb'_statusWord_result (s : State) : (statusWord s).extractLsb' 0 4 = s.result.code := by
  ext i hi
  rw [BitVec.getElem_extractLsb', getLsbD_statusWord s (by omega)]
  simp [show i ≠ 4 by omega, show i ≠ 8 by omega, show i < 12 by omega, BitVec.getLsbD_eq_getElem hi]

theorem extractLsb'_statusWord_cause (s : State) :
    (statusWord s).extractLsb' 12 4 = fcauseCode s.fcause := by
  ext i hi
  rw [BitVec.getElem_extractLsb', getLsbD_statusWord s (by omega),
    BitVec.getLsbD_of_ge s.result.code (12 + i) (by omega)]
  simp [show 12 + i ≠ 4 by omega, show 12 + i ≠ 8 by omega, BitVec.getLsbD_eq_getElem hi]

/-- Settles O37, field by field. -/
theorem statusWordLayout : Obligations.StatusWordLayout := by
  intro s
  have hread : regValue s 0x01#6 = statusWord s := rfl
  rw [hread]
  refine ⟨(extractLsb'_statusWord_result s).trans ?_, ?_, extractLsb'_statusWord_unused s (by omega), ?_,
    extractLsb'_statusWord_unused s (by omega), (extractLsb'_statusWord_cause s).trans ?_,
    extractLsb'_statusWord_unused s (by omega)⟩
  · cases s.result <;> rfl
  · rw [getLsbD_statusWord s (by omega)]
    simp
  · rw [getLsbD_statusWord s (by omega)]
    simp
  · rcases s.fcause with _ | _ | _ <;> rfl

/-! ### The other registers -/

theorem setWidth_byte_eq_append (b : Byte) : b.setWidth 32 = 0#24 ++ b :=
  BitVec.setWidth_eq_append (by decide)

/-- No register has an index from 0x11 on (R22, R23). -/
theorem ofIndex_reserved {r : RegIndex} (h : 0x11 ≤ r.toNat) : RegName.ofIndex r = none :=
  List.getElem?_eq_none h

/-- Settles O38: each named index is read off; a reserved one names no register. -/
theorem registerMapReads : Obligations.RegisterMapReads := by
  intro s
  refine ⟨rfl, rfl, rfl, setWidth_eq_append s.crc, rfl, rfl, rfl, setWidth_byte_eq_append s.fVer,
    setWidth_byte_eq_append s.fType, setWidth_byte_eq_append s.fSeq, setWidth_eq_append s.fCmd,
    setWidth_eq_append s.fLen, rfl, setWidth_eq_append s.fCrc, rfl, rfl, fun r hr => ?_⟩
  simp [regValue, ofIndex_reserved hr]

/-! ### One step on a register access -/

/-- Settles O3: a value that decodes is the opcode of its command. -/
theorem stepRunsTheIssuedCommand : Obligations.StepRunsTheIssuedCommand := by
  intro s v rest i hnext hdecode
  obtain rfl : v = encode i := eq_encode_of_decode hdecode
  exact step_issue hnext

/-- Settles O6, by `step_nil`. -/
theorem nothingHappensWithoutAnAccess : Obligations.NothingHappensWithoutAnAccess :=
  fun _ => step_nil

/-- Settles O39: a read is a reply and no more. -/
theorem registerReadChangesNothing : Obligations.RegisterReadChangesNothing :=
  fun _ _ _ hnext => step_cons hnext

/-- A write to a read-only register or to a reserved index does nothing (R23). -/
theorem regWrite_ignored {r : RegIndex} (hr : r.toNat = 1 ∨ r.toNat = 4 ∨ 7 ≤ r.toNat) (v : Word) (s : State) :
    regWrite r v s = .next s := by
  rcases regWrite_cases r v s with ⟨rfl, -⟩ | ⟨rfl, -⟩ | ⟨rfl, -⟩ | ⟨rfl, -⟩ | ⟨rfl, -⟩ | ⟨-, hkept⟩
  case inr.inr.inr.inr.inr => exact hkept
  all_goals exact absurd hr (by decide)

/-- Settles O40: each index is read off, the ignored ones by `regWrite_ignored`. -/
theorem registerWritesStoreOrAreIgnored : Obligations.RegisterWritesStoreOrAreIgnored := by
  intro s r v rest hnext
  have hstep : step s = regWrite r v { s with pending := rest } := step_cons hnext
  rw [hstep]
  refine ⟨?_, ?_, ?_, fun hr => regWrite_ignored hr v _⟩
  all_goals
    rintro rfl
    rfl

theorem writeFbLen_of_le {v : Word} {s : State} (h : v.toNat ≤ s.config.fbCap.toNat) :
    writeFbLen v s = clearValid { s with fbLen := v } := if_pos h

theorem writeFbLen_of_lt {v : Word} {s : State} (h : s.config.fbCap.toNat < v.toNat) :
    writeFbLen v s = raiseFault .range s := if_neg (Nat.not_le.mpr h)

/-- Settles O41, on both sides of FB_CAP. -/
theorem lengthWriteIsChecked : Obligations.LengthWriteIsChecked := by
  intro s v rest hnext
  have hstep : step s = .next (writeFbLen v { s with pending := rest }) := step_cons hnext
  rw [hstep]
  exact ⟨fun hle => congrArg _ (writeFbLen_of_le hle), fun hlt => congrArg _ (writeFbLen_of_lt hlt)⟩

end Sys2Proof.Machine
end

section
/-! Which accesses write which registers: VALID (R26), the operand registers (R24, R29 to R32), and RESULT and the
F_ registers (R27, R33 to R36). -/

namespace Sys2Proof.Machine

section
variable {s t : State} {a : Access} {rest : List Access}

/-! ### The accesses that change the view -/

@[simp] theorem issue_inj {i j : Instr} : issue i = issue j ↔ i = j :=
  ⟨fun h => encode_injective (Access.regWr.inj h).2, fun h => h ▸ rfl⟩

@[simp] theorem issue_eq_regWr {i : Instr} {r : RegIndex} {v : Word} :
    issue i = .regWr r v ↔ 0#6 = r ∧ encode i = v := by
  simp [issue]

/-- Of the commands exactly the stores change the view (R26). -/
theorem changes_issue_iff {i : Instr} :
    Changes s (issue i) ↔ i = .stU16 ∨ i = .stI16 ∨ i = .stF32 := by
  constructor
  · intro h
    generalize hx : issue i = x at h
    cases h with
    | stU16 => exact .inl (issue_inj.mp hx)
    | stI16 => exact .inr (.inl (issue_inj.mp hx))
    | stF32 => exact .inr (.inr (issue_inj.mp hx))
    | bufWr p b hp => exact absurd hx (by simp [issue])
    | fbLen v => exact absurd (Access.regWr.inj hx).1 (by decide)
    | reset => exact absurd hx (by simp [issue])
  · rintro (rfl | rfl | rfl)
    · exact .stU16
    · exact .stI16
    · exact .stF32

/-- A register write that changes the view is one to CMD or to FB_LEN. -/
theorem index_of_changes {r : RegIndex} {v : Word} (h : Changes s (.regWr r v)) : r = 0#6 ∨ r = 6#6 := by
  generalize hx : Access.regWr r v = x at h
  cases h with
  | stU16 | stI16 | stF32 => exact .inl (Access.regWr.inj hx).1
  | fbLen v => exact .inr (Access.regWr.inj hx).1
  | bufWr p b hp => exact absurd hx (by simp)
  | reset => exact absurd hx (by simp)

/-- Whether an access changes the view does not depend on the host's queue. -/
theorem changes_pending : Changes { s with pending := rest } a ↔ Changes s a := by
  constructor
  all_goals
    intro h
    cases h with
    | bufWr p b hp => exact .bufWr p b hp
    | stU16 => exact .stU16
    | stI16 => exact .stI16
    | stF32 => exact .stF32
    | fbLen v => exact .fbLen v
    | reset => exact .reset

/-- A write to any index but CMD and FB_LEN is no DECODE and does not change the view. -/
theorem regWr_other {r : RegIndex} {v : Word} (hcmd : r ≠ 0#6) (hlen : r ≠ 6#6) :
    .regWr r v ≠ issue .decodeFrame ∧ ¬Changes s (.regWr r v) :=
  ⟨fun h => hcmd (Access.regWr.inj h).1, fun h => (index_of_changes h).elim hcmd hlen⟩

/-! ### VALID -/

/-- VALID after one access (R26): a fault leaves it; otherwise DECODE sets it by its result, an access that changes
the view clears it, and every other access leaves it. -/
theorem performAccess_valid (h : performAccess a s = .next t) :
    (∃ c, Raises s a c) ∧ t.valid = s.valid ∨
    (¬∃ c, Raises s a c) ∧
      (a = issue .decodeFrame ∧ (t.valid = true ↔ t.result = .ok) ∨
       Changes s a ∧ t.valid = false ∨
       (a ≠ issue .decodeFrame ∧ ¬Changes s a) ∧ t.valid = s.valid) := by
  rcases performAccess_cases h with ⟨c, hc, hfault⟩ | ⟨hno, heffect⟩
  · refine .inl ⟨⟨c, hc⟩, ?_⟩
    rcases hfault with ⟨-, v, -, rfl⟩ | ⟨-, i, -, rfl⟩ | ⟨-, v, -, rfl⟩
    all_goals rfl
  · refine .inr ⟨not_exists.mpr hno, ?_⟩
    rcases heffect with
      ⟨i, rfl, hi, rfl⟩ | ⟨i, crc, d, rfl, hi, rfl⟩ | ⟨i, w, d, rfl, hi, rfl⟩ | ⟨i, bs, rfl, hi, -, -, rfl⟩ |
      ⟨rfl, -, rfl⟩ | ⟨v, rfl, rfl⟩ | ⟨v, rfl, rfl⟩ | ⟨v, rfl, rfl⟩ | ⟨v, rfl, -, rfl⟩ | ⟨r, v, rfl, hr, rfl⟩ |
      ⟨r, rfl, rfl⟩ | ⟨p, b, rfl, hp, rfl⟩ | ⟨p, b, rfl, hp, rfl⟩ | ⟨p, b, d, rfl, rfl⟩ | ⟨rfl, rfl⟩
    · exact .inr (.inr ⟨by simp [changes_issue_iff, hi], rfl⟩)
    · exact .inr (.inr ⟨by rcases hi with rfl | rfl | rfl | rfl <;> simp [changes_issue_iff], rfl⟩)
    · exact .inr (.inr ⟨by rcases hi with rfl | rfl | rfl <;> simp [changes_issue_iff], rfl⟩)
    · exact .inr (.inl ⟨changes_issue_iff.mpr hi, rfl⟩)
    · exact .inl ⟨rfl, by simp [decodeAt, recordParse_valid]⟩
    · exact .inr (.inr ⟨regWr_other (by decide) (by decide), rfl⟩)
    · exact .inr (.inr ⟨regWr_other (by decide) (by decide), rfl⟩)
    · exact .inr (.inr ⟨regWr_other (by decide) (by decide), rfl⟩)
    · exact .inr (.inl ⟨.fbLen v, rfl⟩)
    · have hcmd : r ≠ 0#6 := by rintro rfl; revert hr; decide
      have hlen : r ≠ 6#6 := by rintro rfl; revert hr; decide
      exact .inr (.inr ⟨regWr_other hcmd hlen, rfl⟩)
    · exact .inr (.inr ⟨⟨nofun, nofun⟩, rfl⟩)
    · exact .inr (.inl ⟨.bufWr p b hp, rfl⟩)
    · exact .inr (.inr ⟨⟨nofun, fun | .bufWr _ _ hlt => absurd hlt (Nat.not_lt.mpr hp)⟩, rfl⟩)
    · exact .inr (.inr ⟨⟨nofun, nofun⟩, rfl⟩)
    · exact .inr (.inl ⟨.reset, rfl⟩)

/-! ### RESULT, the F_ registers and FB_CAP -/

/-- What an access can write: DECODE and reset apart, none of RESULT, the F_ registers and the configuration. -/
theorem performAccess_writes (h : performAccess a s = .next t) :
    a = issue .decodeFrame ∧ t = decodeAt { s with cmd := encode .decodeFrame } s.a0.toNat ∨
    a = .reset ∧ t = hostReset s ∨
    ∃ u : State, t = { s with
      cmd := u.cmd, a0 := u.a0, a1 := u.a1, cw := u.cw, fbLen := u.fbLen, crc := u.crc, valid := u.valid
      fault := u.fault, fcause := u.fcause, fb := u.fb, draws := u.draws, replies := u.replies } := by
  rcases performAccess_cases h with ⟨c, -, hfault⟩ | ⟨-, heffect⟩
  · rcases hfault with ⟨-, v, -, ht⟩ | ⟨-, i, -, ht⟩ | ⟨-, v, -, ht⟩
    all_goals exact .inr (.inr ⟨t, ht ▸ rfl⟩)
  · rcases heffect with
      ⟨i, -, -, ht⟩ | ⟨i, crc, d, -, -, ht⟩ | ⟨i, w, d, -, -, ht⟩ | ⟨i, bs, -, -, -, -, ht⟩ |
      ⟨hdecode, -, ht⟩ | ⟨v, -, ht⟩ | ⟨v, -, ht⟩ | ⟨v, -, ht⟩ | ⟨v, -, -, ht⟩ | ⟨r, v, -, -, ht⟩ |
      ⟨r, -, ht⟩ | ⟨p, b, -, -, ht⟩ | ⟨p, b, -, -, ht⟩ | ⟨p, b, d, -, ht⟩ | ⟨hreset, ht⟩
    · exact .inr (.inr ⟨t, ht ▸ rfl⟩)
    · exact .inr (.inr ⟨t, ht ▸ rfl⟩)
    · exact .inr (.inr ⟨t, ht ▸ rfl⟩)
    · exact .inr (.inr ⟨t, ht ▸ rfl⟩)
    · exact .inl ⟨hdecode, ht⟩
    · exact .inr (.inr ⟨t, ht ▸ rfl⟩)
    · exact .inr (.inr ⟨t, ht ▸ rfl⟩)
    · exact .inr (.inr ⟨t, ht ▸ rfl⟩)
    · exact .inr (.inr ⟨t, ht ▸ rfl⟩)
    · exact .inr (.inr ⟨t, ht ▸ rfl⟩)
    · exact .inr (.inr ⟨t, ht ▸ rfl⟩)
    · exact .inr (.inr ⟨t, ht ▸ rfl⟩)
    · exact .inr (.inr ⟨t, ht ▸ rfl⟩)
    · exact .inr (.inr ⟨t, ht ▸ rfl⟩)
    · exact .inr (.inl ⟨hreset, ht⟩)

end

/-! ### The obligations -/

/-- Settles O54: the four cases of `performAccess_valid` exclude each other. -/
theorem validChangesOnlyByTheRule : Obligations.ValidChangesOnlyByTheRule := by
  intro s t a rest hnext hstep
  have hvalid := performAccess_valid (step_cases hnext hstep)
  simp only [raises_pending, changes_pending] at hvalid
  rcases hvalid with ⟨hraises, hkept⟩ | ⟨hno, ⟨rfl, hresult⟩ | ⟨hchanges, hcleared⟩ | ⟨⟨hdecode, hother⟩, hkept⟩⟩
  · exact ⟨fun _ => hkept, fun hno => absurd hraises hno⟩
  · have hother : ¬Changes s (issue .decodeFrame) := by simp [changes_issue_iff]
    exact ⟨fun hraises => absurd hraises hno,
      fun _ => ⟨fun _ => hresult, fun hchanges => absurd hchanges hother, fun hne => absurd rfl hne⟩⟩
  · have hdecode : a ≠ issue .decodeFrame := by rintro rfl; simp [changes_issue_iff] at hchanges
    exact ⟨fun hraises => absurd hraises hno,
      fun _ => ⟨fun heq => absurd heq hdecode, fun _ => hcleared, fun _ hother => absurd hchanges hother⟩⟩
  · exact ⟨fun hraises => absurd hraises hno,
      fun _ => ⟨fun heq => absurd heq hdecode, fun hchanges => absurd hchanges hother, fun _ _ => hkept⟩⟩

/-- Settles O55, by what each access can do: a register write changes its own register only, a fault only CMD, and a
command CMD and what its row of the table names. -/
theorem operandRegistersHaveTheirWriters : Obligations.OperandRegistersHaveTheirWriters := by
  intro s t a rest hnext hstep hne
  rcases performAccess_cases (step_cases hnext hstep) with ⟨c, -, hfault⟩ | ⟨-, heffect⟩
  · rcases hfault with ⟨-, v, rfl, rfl⟩ | ⟨-, i, rfl, rfl⟩ | ⟨-, v, rfl, rfl⟩
    all_goals simp
  · rcases heffect with
      ⟨i, rfl, -, rfl⟩ | ⟨i, crc, d, rfl, hi, rfl⟩ | ⟨i, w, d, rfl, hi, rfl⟩ | ⟨i, bs, rfl, -, -, -, rfl⟩ |
      ⟨rfl, -, rfl⟩ | ⟨v, rfl, rfl⟩ | ⟨v, rfl, rfl⟩ | ⟨v, rfl, rfl⟩ | ⟨v, rfl, -, rfl⟩ | ⟨r, v, rfl, -, rfl⟩ |
      ⟨r, rfl, rfl⟩ | ⟨p, b, rfl, -, rfl⟩ | ⟨p, b, rfl, -, rfl⟩ | ⟨p, b, d, rfl, rfl⟩ | ⟨rfl, -⟩
    · simp
    · simp [hi]
    · simp [hi]
    · simp
    · simp
    · simp
    · simp
    · simp
    · simp
    · simp
    · simp
    · simp
    · simp
    · simp
    · exact absurd rfl hne

/-- Settles O56: a field that `performAccess_writes` does not name keeps its value. -/
theorem resultRegistersHaveOneWriter : Obligations.ResultRegistersHaveOneWriter := by
  intro s t a rest hnext hstep
  rcases performAccess_writes (step_cases hnext hstep) with ⟨hdecode, rfl⟩ | ⟨hreset, rfl⟩ | ⟨u, rfl⟩
  · exact ⟨by simp, fun hne _ => absurd hdecode hne⟩
  · exact ⟨by simp, fun _ hne => absurd hreset hne⟩
  · exact ⟨rfl, fun _ _ => ⟨rfl, rfl, rfl, rfl, rfl, rfl, rfl, rfl, rfl, rfl⟩⟩

end Sys2Proof.Machine
end

section
/-! What VALID = 1 means (R26): each operation on the state either leaves the view and the bytes under it alone,
or clears VALID, or is a DECODE, which shows the bytes it has just read. So every step keeps `ViewSound`. -/

namespace Sys2Proof.Machine

section
variable {s : State}

/-! ### Accesses that leave the view alone, or clear VALID -/

/-- `ViewSound` does not read CMD, the operand registers, CRC, FAULT, FCAUSE or the model's own fields. -/
theorem viewSound_of_otherFields (hs : ViewSound s) {cmd a0 a1 cw : Word} {crc : Half} {fault : Bool}
    {fcause : Option FaultCause} {draws : Nat} {pending : List Access} {replies : List Reply} :
    ViewSound { s with
      cmd := cmd, a0 := a0, a1 := a1, cw := cw, crc := crc, fault := fault, fcause := fcause
      draws := draws, pending := pending, replies := replies } :=
  fun hvalid =>
    have ⟨hview, hheader, hcrc⟩ := hs hvalid
    ⟨⟨hview.result_ok, hview.after_header, hview.inside, hview.consumed⟩, hheader, hcrc⟩

/-- While VALID is 0 there is no view to be sound. -/
theorem viewSound_of_not_valid (h : s.valid = false) : ViewSound s :=
  fun hvalid => absurd (h.symm.trans hvalid) Bool.false_ne_true

/-! ### DECODE -/

/-- The header and crc of an Ok parse are, byte for byte, what DECODE has read (R140, R145). -/
theorem bytesRead_of_parseFb_ok {fb : Memory} {draws base L : Nat} {h : Header} {crc : Half}
    (hp : (parseFb fb draws base L).1 = .ok h crc) :
    bytesRead fb draws base 9 =
        [sync1, sync2, h.ver, h.typ, h.seq] ++ toBytes16 h.cmd ++ toBytes16 h.len ∧
      bytesRead fb (draws + unwritten fb base 9) (base + 9 + h.len.toNat) 2 = toBytes16 crc := by
  rw [parseFb_eq] at hp
  split_ifs at hp with hshort hsync hincomplete
  obtain ⟨rfl, rfl⟩ := Parse.ok.inj hp
  obtain ⟨hsync1, hsync2⟩ := hsync
  constructor
  · simp [bytesRead, List.range_succ, headerAt, hsync1, hsync2, sync1, sync2]
  · simp [bytesRead_two]

/-- A DECODE at a base up to FB_LEN that gives Ok shows the header and crc bytes that stand in FB; any other
result clears VALID (R142 to R144). -/
theorem decodeAt_viewSound {base : Nat} (hbase : base ≤ s.fbLen.toNat) : ViewSound (decodeAt s base) := by
  unfold decodeAt
  generalize hp : (parseFb s.fb s.draws base (s.fbLen.toNat - base)).1 = p
  cases p
  case tooShort | badSync | incomplete => exact viewSound_of_not_valid rfl
  case ok h crc =>
    intro _
    have hfit : base + h.frameLen ≤ s.fbLen.toNat := by
      have := frameLen_le_of_parseFb_ok hp
      omega
    have hpoff : (BitVec.ofNat 32 (base + headerSize)).toNat = base + 9 := by
      have := s.fbLen.isLt
      simp only [Header.frameLen, headerSize, checksumSize] at hfit
      exact Nat.mod_eq_of_lt (by simp only [headerSize]; omega)
    obtain ⟨hheader, hcrc⟩ := bytesRead_of_parseFb_ok hp
    refine ⟨recordParse_ok_viewInside hfit, ?_, ?_⟩
    · show Agrees s.fb ((BitVec.ofNat 32 (base + headerSize)).toNat - 9)
        ([sync1, sync2, h.ver, h.typ, h.seq] ++ toBytes16 h.cmd ++ toBytes16 h.len)
      rw [hpoff, Nat.add_sub_cancel, ← hheader]
      exact agrees_bytesRead s.fb s.draws base 9
    · show Agrees s.fb ((BitVec.ofNat 32 (base + headerSize)).toNat + h.len.toNat) (toBytes16 crc)
      rw [hpoff, ← hcrc]
      exact agrees_bytesRead s.fb _ _ 2

end

/-! ### One access, one step -/

/-- Every host access keeps the meaning of VALID = 1. -/
theorem performAccess_keeps_viewSound {s t : State} {a : Access} (hs : ViewSound s)
    (h : performAccess a s = .next t) : ViewSound t := by
  rcases performAccess_cases h with ⟨c, -, hfault⟩ | ⟨-, heffect⟩
  · rcases hfault with ⟨-, v, -, rfl⟩ | ⟨-, i, -, rfl⟩ | ⟨-, v, -, rfl⟩
    all_goals exact viewSound_of_otherFields hs
  · rcases heffect with
      ⟨i, -, -, rfl⟩ | ⟨i, crc, d, -, -, rfl⟩ | ⟨i, w, d, -, -, rfl⟩ | ⟨i, bs, -, -, -, -, rfl⟩ |
      ⟨-, hbase, rfl⟩ | ⟨v, -, rfl⟩ | ⟨v, -, rfl⟩ | ⟨v, -, rfl⟩ | ⟨v, -, -, rfl⟩ | ⟨r, v, -, -, rfl⟩ |
      ⟨r, -, rfl⟩ | ⟨p, b, -, -, rfl⟩ | ⟨p, b, -, -, rfl⟩ | ⟨p, b, d, -, rfl⟩ | ⟨-, rfl⟩
    · exact viewSound_of_otherFields hs
    · exact viewSound_of_otherFields hs
    · exact viewSound_of_otherFields hs
    · exact viewSound_of_not_valid rfl
    · exact decodeAt_viewSound hbase
    · exact viewSound_of_otherFields hs
    · exact viewSound_of_otherFields hs
    · exact viewSound_of_otherFields hs
    · exact viewSound_of_not_valid rfl
    · exact hs
    · exact viewSound_of_otherFields hs
    · exact viewSound_of_not_valid rfl
    · exact hs
    · exact viewSound_of_otherFields hs
    · exact viewSound_of_not_valid rfl

/-- Every step keeps the meaning of VALID = 1: it performs the next access, or nothing (R20, R60). -/
theorem step_keeps_viewSound {s t : State} (hs : ViewSound s) (h : step s = .next t) : ViewSound t := by
  cases hp : s.pending with
  | nil =>
    obtain rfl : s = t := Host.Outcome.next.inj ((step_nil hp).symm.trans h)
    exact hs
  | cons a rest =>
    have hperf : performAccess a { s with pending := rest } = .next t := step_cases hp h
    exact performAccess_keeps_viewSound (viewSound_of_otherFields hs) hperf

/-- Settles O48, by what each access can do. -/
theorem stepKeepsValidViewSound : Obligations.StepKeepsValidViewSound :=
  fun _ _ => step_keeps_viewSound

end Sys2Proof.Machine
end

section
/-! No command reaches an FB byte at or above FB_LEN (R32, R50): what a command reads below FB_LEN does not depend
on the bytes above it, and what it writes stays below it. -/

namespace Sys2Proof.Machine

/-! ### Reads of two memories that agree on a range -/

section
variable {fb fb' : Memory} {a n : Nat}

theorem unwritten_congr (h : ∀ x, a ≤ x → x < a + n → fb'.read x = fb.read x) :
    unwritten fb' a n = unwritten fb a n := by
  unfold unwritten
  refine List.countP_congr fun i hi => ?_
  rw [h (a + i) (by omega) (by have := List.mem_range.mp hi; omega)]

theorem byteRead_congr (draws : Nat) (h : ∀ x, a ≤ x → x < a + n → fb'.read x = fb.read x) {i : Nat} (hi : i < n) :
    byteRead fb' draws a i = byteRead fb draws a i := by
  have hunwritten : unwritten fb' a i = unwritten fb a i :=
    unwritten_congr fun x hx hlt => h x hx (by omega)
  rw [byteRead, byteRead, h (a + i) (by omega) (by omega), hunwritten]

theorem bytesRead_congr (draws : Nat) (h : ∀ x, a ≤ x → x < a + n → fb'.read x = fb.read x) :
    bytesRead fb' draws a n = bytesRead fb draws a n :=
  List.map_congr_left fun _ hi => byteRead_congr draws h (List.mem_range.mp hi)

theorem headerAt_congr (draws : Nat) (h : ∀ x, a ≤ x → x < a + 9 → fb'.read x = fb.read x) :
    headerAt fb' draws a = headerAt fb draws a := by
  have hbyte (i : Nat) (hi : i < 9) : byteRead fb' draws a i = byteRead fb draws a i := byteRead_congr draws h hi
  simp [headerAt, hbyte]

/-- DECODE depends on the bytes of its view only (R145). -/
theorem parseFb_congr (draws : Nat) {L : Nat} (h : ∀ x, a ≤ x → x < a + L → fb'.read x = fb.read x) :
    parseFb fb' draws a L = parseFb fb draws a L := by
  rw [parseFb_eq, parseFb_eq]
  by_cases hshort : L < 11
  · rw [if_pos hshort, if_pos hshort]
  have hbyte (i : Nat) (hi : i < 9) : byteRead fb' draws a i = byteRead fb draws a i :=
    byteRead_congr draws h (by omega)
  have hheader : headerAt fb' draws a = headerAt fb draws a :=
    headerAt_congr draws fun x hx hlt => h x hx (by omega)
  have hdraws (k : Nat) (hk : k ≤ 9) : unwritten fb' a k = unwritten fb a k :=
    unwritten_congr fun x hx hlt => h x hx (by omega)
  rw [hheader, hbyte 0 (by omega), hbyte 1 (by omega), hdraws 2 (by omega), hdraws 9 (by omega)]
  by_cases hincomplete : L < 11 + (headerAt fb draws a).len.toNat
  · rw [if_pos hincomplete, if_pos hincomplete]
  have hcrc : ∀ x, a + 9 + (headerAt fb draws a).len.toNat ≤ x →
      x < a + 9 + (headerAt fb draws a).len.toNat + 2 → fb'.read x = fb.read x :=
    fun x hx hlt => h x (by omega) (by omega)
  rw [byteRead_congr _ hcrc (i := 0) (by omega), byteRead_congr _ hcrc (i := 1) (by omega), unwritten_congr hcrc]

end

/-- DECODE's own check of its base is the range check with n = 0 (R141). -/
theorem exec_decodeFrame (s : State) :
    exec .decodeFrame s = guardRange s (operandOffset s) 0 (decodeAt s (operandOffset s)) := by
  rcases Nat.lt_or_ge s.fbLen.toNat (operandOffset s) with hlt | hle
  · rw [guardRange_of_lt hlt, exec, execDecodeFrame, if_pos hlt]
  · rw [guardRange_of_le hle, exec, execDecodeFrame, if_neg (Nat.not_lt.mpr hle)]

/-! ### Two runs that differ above FB_LEN -/

/-- Two outcomes, from `s` and from `s` with the memory `fb`, that show the host the same: the same registers, the
same bytes below FB_LEN, and above it each side's own bytes untouched. -/
def AlikeBelowLength (s : State) (fb : Memory) (o o' : Host.Outcome State Fault Refusal) : Prop :=
  ∃ (t : State) (fb' : Memory), o = .next t ∧ o' = .next { t with fb := fb' } ∧
    (∀ a, a < s.fbLen.toNat → fb'.read a = t.fb.read a) ∧
    ∀ a, s.fbLen.toNat ≤ a → fb'.read a = fb.read a ∧ t.fb.read a = s.fb.read a

section
variable {s : State} {fb : Memory} (hagree : ∀ a, a < s.fbLen.toNat → fb.read a = s.fb.read a)
include hagree

/-- The same registers written on both sides, and no byte. -/
theorem alike_of_fb_kept {t : State} (h : t.fb = s.fb) :
    AlikeBelowLength s fb (.next t) (.next { t with fb := fb }) :=
  ⟨t, fb, rfl, rfl, fun a ha => h ▸ hagree a ha, fun _ _ => ⟨rfl, by rw [h]⟩⟩

/-- The same bytes stored on both sides, below FB_LEN. -/
theorem alike_memWrite {a : Nat} {bs : List Byte} (h : a + bs.length ≤ s.fbLen.toNat) :
    AlikeBelowLength s fb (.next (memWrite s a bs)) (.next (memWrite { s with fb := fb } a bs)) := by
  refine ⟨_, fb.writeBytes a bs, rfl, rfl, fun x hx => ?_, fun x hx => ?_⟩
  · show (fb.writeBytes a bs).read x = (s.fb.writeBytes a bs).read x
    rw [Memory.read_writeBytes, Memory.read_writeBytes, hagree x hx]
  · show (fb.writeBytes a bs).read x = fb.read x ∧ (s.fb.writeBytes a bs).read x = s.fb.read x
    have hout : ¬(a ≤ x ∧ x < a + bs.length) := by omega
    rw [Memory.read_writeBytes, Memory.read_writeBytes, dif_neg hout, dif_neg hout]
    exact ⟨rfl, rfl⟩

/-- Both sides pass the range check, or both raise the same fault. -/
theorem alike_guardRange {off n : Nat} {done done' : State}
    (h : off + n ≤ s.fbLen.toNat → AlikeBelowLength s fb (.next done) (.next done')) :
    AlikeBelowLength s fb (guardRange s off n done) (guardRange { s with fb := fb } off n done') := by
  rcases Nat.lt_or_ge s.fbLen.toNat (off + n) with hlt | hle
  · rw [guardRange_of_lt hlt, guardRange_of_lt (s := { s with fb := fb }) hlt]
    exact alike_of_fb_kept hagree (t := raiseFault .range s) rfl
  · rw [guardRange_of_le hle, guardRange_of_le (s := { s with fb := fb }) hle]
    exact h hle

/-- A range below FB_LEN gives both sides the same bytes and draws the same free bytes. -/
theorem fbBytes_below {off n : Nat} (h : off + n ≤ s.fbLen.toNat) :
    fbBytes { s with fb := fb } off n = fbBytes s off n ∧ fbDraws { s with fb := fb } off n = fbDraws s off n := by
  have hrange : ∀ x, off ≤ x → x < off + n → fb.read x = s.fb.read x := fun x _ hx => hagree x (by omega)
  simp only [fbBytes_eq, fbDraws_eq]
  exact ⟨bytesRead_congr _ hrange, congrArg _ (unwritten_congr hrange)⟩

/-- A command that only reads a range below FB_LEN: what it does with the bytes and the draw counter is the same. -/
theorem alike_guardRange_reads {off n : Nat} (done : List Byte → Nat → State) (hdone : ∀ bs d, (done bs d).fb = s.fb) :
    AlikeBelowLength s fb (guardRange s off n (done (fbBytes s off n) (fbDraws s off n)))
      (guardRange { s with fb := fb } off n
        { done (fbBytes { s with fb := fb } off n) (fbDraws { s with fb := fb } off n) with fb := fb }) := by
  refine alike_guardRange hagree fun hle => ?_
  obtain ⟨hbytes, hdraws⟩ := fbBytes_below hagree hle
  rw [hbytes, hdraws]
  exact alike_of_fb_kept hagree (hdone _ _)

/-- DECODE at a base up to FB_LEN records the same parse on both sides (R141, R145). -/
theorem decodeAt_below {base : Nat} (h : base ≤ s.fbLen.toNat) :
    decodeAt { s with fb := fb } base = { decodeAt s base with fb := fb } := by
  have hview : parseFb fb s.draws base (s.fbLen.toNat - base) = parseFb s.fb s.draws base (s.fbLen.toNat - base) :=
    parseFb_congr s.draws fun x _ hx => hagree x (by omega)
  simp only [decodeAt, hview]
  cases (parseFb s.fb s.draws base (s.fbLen.toNat - base)).1 <;> rfl

/-- Every command runs alike on both sides. -/
theorem exec_alike (i : Instr) : AlikeBelowLength s fb (exec i s) (exec i { s with fb := fb }) := by
  cases i
  case nop | crcInit | crcByte => exact alike_of_fb_kept hagree rfl
  case crcBuf =>
    exact alike_guardRange_reads hagree (fun bs d => { s with crc := crc16 bs, draws := d }) fun _ _ => rfl
  case crcAcc =>
    exact alike_guardRange_reads hagree (fun bs d => { s with crc := crcFold s.crc bs, draws := d }) fun _ _ => rfl
  case ldU16 =>
    exact alike_guardRange_reads hagree (fun bs d => { s with cw := (fromBytes16 bs).setWidth 32, draws := d })
      fun _ _ => rfl
  case ldI16 =>
    exact alike_guardRange_reads hagree (fun bs d => { s with cw := (fromBytes16 bs).signExtend 32, draws := d })
      fun _ _ => rfl
  case ldF32 =>
    exact alike_guardRange_reads hagree (fun bs d => { s with cw := fromBytes32 bs, draws := d }) fun _ _ => rfl
  case stU16 | stI16 | stF32 => exact alike_guardRange hagree fun hle => alike_memWrite hagree hle
  case decodeFrame =>
    rw [exec_decodeFrame, exec_decodeFrame]
    refine alike_guardRange hagree fun hbase => ?_
    have hdecode : decodeAt { s with fb := fb } (operandOffset s) = { decodeAt s (operandOffset s) with fb := fb } :=
      decodeAt_below hagree hbase
    exact hdecode ▸ alike_of_fb_kept hagree (by simp)

end

/-- Settles O58, command by command. -/
theorem commandsReachOnlyBelowLength : Obligations.CommandsReachOnlyBelowLength :=
  fun i _ _ hagree => exec_alike hagree i

end Sys2Proof.Machine
end

section
/-! The buffer port and the host's queue (R51 to R53, R60, R63): what one step on a read or a write of FB does, which
accesses change a byte of FB (R54), and that every access is performed in issue order with the reply of its kind. -/

namespace Sys2Proof.Machine

/-! ### The command word that the host's interface places -/

/-- The placed word is the write that issues the command: an opcode has no bits beyond the 32 kept. -/
theorem withFetchWord_encode (s : State) (i : Instr) :
    s.withFetchWord 32 (encode i).toNat = { s with pending := issue i :: s.pending } := by
  have hword : BitVec.ofNat 32 ((encode i).toNat % 2 ^ 32) = encode i := by
    rw [Nat.mod_eq_of_lt (encode i).isLt, BitVec.ofNat_toNat, BitVec.setWidth_eq]
  rw [State.withFetchWord, hword]
  rfl

/-- Settles O4: the placed write is the next access, and it issues the command. -/
theorem placedWordIsTheNextCommand : Obligations.PlacedWordIsTheNextCommand := by
  intro s i
  rw [withFetchWord_encode]
  exact step_issue rfl

/-! ### One step on a buffer access -/

theorem bufWrite_of_lt {a : Word} {s : State} (b : Byte) (h : a.toNat < s.config.fbCap.toNat) :
    bufWrite a b s = clearValid { s with fb := s.fb.write a.toNat b } := if_pos h

theorem bufWrite_of_le {a : Word} {s : State} (b : Byte) (h : s.config.fbCap.toNat ≤ a.toNat) :
    bufWrite a b s = s := if_neg (Nat.not_lt.mpr h)

theorem bufRead_of_lt {a : Word} {s : State} (h : a.toNat < s.config.fbCap.toNat) :
    bufRead a s =
      reply (.bufData (readByte s.fb s.draws a.toNat).1) { s with draws := (readByte s.fb s.draws a.toNat).2 } :=
  if_pos h

theorem bufRead_of_le {a : Word} {s : State} (h : s.config.fbCap.toNat ≤ a.toNat) :
    bufRead a s = reply (.bufData 0#8) s := if_neg (Nat.not_lt.mpr h)

/-- A written byte reads as itself and draws nothing. -/
theorem readByte_of_some {fb : Memory} {a : Nat} {b : Byte} (draws : Nat) (h : fb.read a = some b) :
    readByte fb draws a = (b, draws) := by
  rw [readByte, h]

/-- A byte not written since reset reads as the next free byte (R199). -/
theorem readByte_of_none {fb : Memory} {a : Nat} (draws : Nat) (h : fb.read a = none) :
    readByte fb draws a = (Config.freeByte draws, draws + 1) := by
  rw [readByte, h]

/-- Settles O42, on both sides of FB_CAP. -/
theorem bufferWriteStoresBelowCapacity : Obligations.BufferWriteStoresBelowCapacity := by
  intro s a b rest hnext
  have hstep : step s = .next (bufWrite a b { s with pending := rest }) := step_cons hnext
  rw [hstep]
  constructor
  · intro hlt
    refine ⟨_, congrArg _ (bufWrite_of_lt b hlt), rfl, ?_, fun x hx => ?_⟩
    · exact (Memory.read_write s.fb a.toNat a.toNat b).trans (if_pos rfl)
    · exact (Memory.read_write s.fb a.toNat x b).trans (if_neg hx)
  · exact fun hle => congrArg _ (bufWrite_of_le b hle)

/-- Settles O43: a written byte, a byte not written since reset, and no byte of FB. -/
theorem bufferReadReturnsTheByte : Obligations.BufferReadReturnsTheByte := by
  intro s a rest hnext
  have hstep : step s = .next (bufRead a { s with pending := rest }) := step_cons hnext
  rw [hstep]
  refine ⟨fun b hlt hread => ?_, fun hlt hread => ?_, fun hle => ?_⟩
  · rw [bufRead_of_lt (s := { s with pending := rest }) hlt, readByte_of_some s.draws hread]
    rfl
  · rw [bufRead_of_lt (s := { s with pending := rest }) hlt, readByte_of_none s.draws hread]
    rfl
  · rw [bufRead_of_le (s := { s with pending := rest }) hle]
    rfl

/-! ### Which accesses change FB, and which give a reply -/

section
variable {s t : State} {a : Access} {rest : List Access}

theorem rangeOf_pending (i : Instr) : rangeOf { s with pending := rest } i = rangeOf s i := by
  cases i <;> rfl

/-- FB after one access (R54): a buffer write below FB_CAP writes its byte, a store its bytes below FB_LEN, reset
takes every byte away, and every other access leaves FB as it is. -/
theorem performAccess_fb (h : performAccess a s = .next t) :
    t.fb = s.fb ∨
    (∃ p b, a = .bufWr p b ∧ p.toNat < s.config.fbCap.toNat ∧ t.fb = s.fb.write p.toNat b) ∨
    (∃ i bs, a = issue i ∧ (i = .stU16 ∨ i = .stI16 ∨ i = .stF32) ∧ rangeOf s i = some bs.length ∧
      s.a0.toNat + bs.length ≤ s.fbLen.toNat ∧ t.fb = s.fb.writeBytes s.a0.toNat bs) ∨
    (a = .reset ∧ t.fb = []) := by
  rcases performAccess_cases h with ⟨c, -, hfault⟩ | ⟨-, heffect⟩
  · rcases hfault with ⟨-, v, -, rfl⟩ | ⟨-, i, -, rfl⟩ | ⟨-, v, -, rfl⟩
    all_goals exact .inl rfl
  · rcases heffect with
      ⟨i, -, -, rfl⟩ | ⟨i, crc, d, -, -, rfl⟩ | ⟨i, w, d, -, -, rfl⟩ | ⟨i, bs, ha, hi, hlen, hrange, rfl⟩ |
      ⟨-, -, rfl⟩ | ⟨v, -, rfl⟩ | ⟨v, -, rfl⟩ | ⟨v, -, rfl⟩ | ⟨v, -, -, rfl⟩ | ⟨r, v, -, -, rfl⟩ |
      ⟨r, -, rfl⟩ | ⟨p, b, ha, hp, rfl⟩ | ⟨p, b, -, -, rfl⟩ | ⟨p, b, d, -, rfl⟩ | ⟨ha, rfl⟩
    · exact .inl rfl
    · exact .inl rfl
    · exact .inl rfl
    · exact .inr (.inr (.inl ⟨i, bs, ha, hi, hlen, hrange, rfl⟩))
    · exact .inl (by simp)
    · exact .inl rfl
    · exact .inl rfl
    · exact .inl rfl
    · exact .inl rfl
    · exact .inl rfl
    · exact .inl rfl
    · exact .inr (.inl ⟨p, b, ha, hp, rfl⟩)
    · exact .inl rfl
    · exact .inl rfl
    · exact .inr (.inr (.inr ⟨ha, rfl⟩))

/-- The replies after one access (R60): a read adds the one of its kind, and every other access adds none. -/
theorem performAccess_replies (h : performAccess a s = .next t) :
    (∃ r v, a = .regRd r ∧ t.replies = s.replies ++ [.regData v]) ∨
    (∃ p b, a = .bufRd p ∧ t.replies = s.replies ++ [.bufData b]) ∨
    ((∀ r, a ≠ .regRd r) ∧ (∀ p, a ≠ .bufRd p) ∧ t.replies = s.replies) := by
  rcases performAccess_cases h with ⟨c, -, hfault⟩ | ⟨-, heffect⟩
  · rcases hfault with ⟨-, v, rfl, rfl⟩ | ⟨-, i, rfl, rfl⟩ | ⟨-, v, rfl, rfl⟩
    all_goals exact .inr (.inr ⟨nofun, nofun, rfl⟩)
  · rcases heffect with
      ⟨i, rfl, -, rfl⟩ | ⟨i, crc, d, rfl, -, rfl⟩ | ⟨i, w, d, rfl, -, rfl⟩ | ⟨i, bs, rfl, -, -, -, rfl⟩ |
      ⟨rfl, -, rfl⟩ | ⟨v, rfl, rfl⟩ | ⟨v, rfl, rfl⟩ | ⟨v, rfl, rfl⟩ | ⟨v, rfl, -, rfl⟩ | ⟨r, v, rfl, -, rfl⟩ |
      ⟨r, rfl, rfl⟩ | ⟨p, b, rfl, -, rfl⟩ | ⟨p, b, rfl, -, rfl⟩ | ⟨p, b, d, rfl, rfl⟩ | ⟨rfl, rfl⟩
    · exact .inr (.inr ⟨nofun, nofun, rfl⟩)
    · exact .inr (.inr ⟨nofun, nofun, rfl⟩)
    · exact .inr (.inr ⟨nofun, nofun, rfl⟩)
    · exact .inr (.inr ⟨nofun, nofun, rfl⟩)
    · exact .inr (.inr ⟨nofun, nofun, by simp⟩)
    · exact .inr (.inr ⟨nofun, nofun, rfl⟩)
    · exact .inr (.inr ⟨nofun, nofun, rfl⟩)
    · exact .inr (.inr ⟨nofun, nofun, rfl⟩)
    · exact .inr (.inr ⟨nofun, nofun, rfl⟩)
    · exact .inr (.inr ⟨nofun, nofun, rfl⟩)
    · exact .inl ⟨r, _, rfl, rfl⟩
    · exact .inr (.inr ⟨nofun, nofun, rfl⟩)
    · exact .inr (.inr ⟨nofun, nofun, rfl⟩)
    · exact .inr (.inl ⟨p, b, rfl, rfl⟩)
    · exact .inr (.inr ⟨nofun, nofun, rfl⟩)

/-- No access touches the accesses that wait behind it (R60). -/
theorem performAccess_pending (h : performAccess a s = .next t) : t.pending = s.pending := by
  rcases performAccess_writes h with ⟨-, rfl⟩ | ⟨-, rfl⟩ | ⟨u, rfl⟩
  · simp
  · rfl
  · rfl

end

/-- Settles O50: the step performs the access it takes from the queue, and that access gives the replies. -/
theorem accessesRunInIssueOrder : Obligations.AccessesRunInIssueOrder := by
  intro s t a rest hnext hstep
  have hperf : performAccess a { s with pending := rest } = .next t := step_cases hnext hstep
  refine ⟨performAccess_pending hperf, ?_⟩
  rcases performAccess_replies hperf with ⟨r, v, rfl, hreply⟩ | ⟨p, b, rfl, hreply⟩ | ⟨hreg, hbuf, hkept⟩
  · exact ⟨fun _ => ⟨v, hreply⟩, nofun, fun hreg => absurd rfl (hreg r)⟩
  · exact ⟨nofun, fun _ => ⟨b, hreply⟩, fun _ hbuf => absurd rfl (hbuf p)⟩
  · exact ⟨fun ⟨r, hr⟩ => absurd hr (hreg r), fun ⟨p, hp⟩ => absurd hp (hbuf p), fun _ _ => hkept⟩

/-- Settles O57: a byte that a write does not cover reads as before. -/
theorem bytesChangeOnlyByWrites : Obligations.BytesChangeOnlyByWrites := by
  intro s t a rest x hnext hstep hchanged
  rcases performAccess_fb (step_cases hnext hstep) with
    hkept | ⟨p, b, ha, hp, hwritten⟩ | ⟨i, bs, ha, hi, hlen, hrange, hwritten⟩ | ⟨ha, -⟩
  · exact absurd (congrArg (Memory.read · x) hkept) hchanged
  · rw [hwritten, Memory.read_write] at hchanged
    have hx : x = p.toNat := of_not_not fun hne => hchanged (if_neg hne)
    exact .inl ⟨p, b, ha, hx.symm, hx ▸ hp⟩
  · rw [hwritten, Memory.read_writeBytes] at hchanged
    obtain ⟨hlow, hhigh⟩ : s.a0.toNat ≤ x ∧ x < s.a0.toNat + bs.length :=
      of_not_not fun hout => hchanged (dif_neg hout)
    exact .inr (.inl ⟨i, bs.length, ha, hi, (rangeOf_pending i).symm.trans hlen, hlow, hhigh,
      lt_of_lt_of_le hhigh hrange⟩)
  · exact .inr (.inr ha)

/-! ### A stored float32 read as two halves -/

/-- The bytes of a word are those of its high half, then those of its low half (R55, R120). -/
theorem toBytes32_append_half (high low : Half) :
    toBytes32 (high ++ low) = toBytes16 high ++ toBytes16 low := by
  have hhigh (k : Nat) : (high ++ low : Word).extractLsb' (16 + k) 8 = high.extractLsb' k 8 := by
    ext i hi
    rw [BitVec.getElem_extractLsb', BitVec.getElem_extractLsb', BitVec.getLsbD_append, if_neg (by omega),
      show 16 + k + i - 16 = k + i by omega]
  have hlow (k : Nat) (hk : k ≤ 8) : (high ++ low : Word).extractLsb' k 8 = low.extractLsb' k 8 := by
    ext i hi
    rw [BitVec.getElem_extractLsb', BitVec.getElem_extractLsb', BitVec.getLsbD_append, if_pos (by omega)]
  rw [toBytes32, hhigh 8, hhigh 0, hlow 8 (by omega), hlow 0 (by omega)]
  rfl

/-- Bytes written in one run are written in each of its two parts. -/
theorem holds_append {fb : Memory} {a : Nat} {bs cs : List Byte} (h : Holds fb a (bs ++ cs)) :
    Holds fb a bs ∧ Holds fb (a + bs.length) cs := by
  constructor
  · intro i hi
    rw [h i (by simp; omega), List.getElem_append_left hi]
  · intro i hi
    rw [Nat.add_assoc, h (bs.length + i) (by simpa using hi), List.getElem_append_right (by omega)]
    simp

/-- LD_U16 of a half that has been written loads it and changes nothing else (R121). -/
theorem exec_ldU16_of_holds {s : State} {v : Half} (h : Holds s.fb s.a0.toNat (toBytes16 v))
    (hrange : s.a0.toNat + 2 ≤ s.fbLen.toNat) : exec .ldU16 s = .next { s with cw := v.setWidth 32 } := by
  obtain ⟨hread, hdraws⟩ := memRead16_of_holds h
  rw [exec, execLdU16, operandOffset_eq, guardRange_of_le hrange, hread, hdraws]

theorem exec_stF32_of_le {s : State} (h : s.a0.toNat + 4 ≤ s.fbLen.toNat) :
    exec .stF32 s = .next (memWrite s s.a0.toNat (toBytes32 s.cw)) := guardRange_of_le h

/-- Settles O25: the store writes both halves one after the other, and each load reads its own. -/
theorem floatReadsBackAsTwoHalves : Obligations.FloatReadsBackAsTwoHalves := by
  intro s high low hcw hrange
  have hstored :
      Holds (s.fb.writeBytes s.a0.toNat (toBytes32 s.cw)) s.a0.toNat (toBytes16 high ++ toBytes16 low) := by
    rw [← toBytes32_append_half, ← hcw]
    exact holds_writeBytes s.fb s.a0.toNat (toBytes32 s.cw)
  obtain ⟨hhigh, hlow⟩ := holds_append hstored
  have haddr : (s.a0 + 2#32).toNat = s.a0.toNat + 2 := by
    have := s.fbLen.isLt
    rw [BitVec.toNat_add]
    exact Nat.mod_eq_of_lt (by simp only [BitVec.toNat_ofNat]; omega)
  refine ⟨_, exec_stF32_of_le hrange, exec_ldU16_of_holds hhigh ?_, exec_ldU16_of_holds ?_ ?_⟩
  · show s.a0.toNat + 2 ≤ s.fbLen.toNat
    omega
  · exact haddr ▸ hlow
  · show (s.a0 + 2#32).toNat + 2 ≤ s.fbLen.toNat
    omega

end Sys2Proof.Machine
end

section
/-! Encoding and issue (R71 to R73), and the expansion of the pseudo-instructions (R82, R83). Every command completes;
so a pseudo-instruction performs its command as soon as the lines before the write to CMD write its operands. -/

namespace Sys2Proof.Machine

/-! ### The decoder and a write to CMD -/

/-- The decoder gives a command exactly on its opcode, compared whole (R71). -/
theorem decode_eq_ok_iff {v : Word} {i : Instr} : decode v = .ok i ↔ v = encode i := by
  constructor
  · exact eq_encode_of_decode
  · rintro rfl
    exact decode_encode i

/-- The decoder names the value it refuses (R73). -/
theorem decode_illegal {v : Word} (h : ∀ i, v ≠ encode i) : decode v = .error (.illegalOp v) := by
  cases hlookup : opcodeMap.lookup v with
  | none => simp [decode, hlookup]
  | some i =>
    have hdecode : decode v = .ok i := by simp [decode, hlookup]
    exact absurd (eq_encode_of_decode hdecode) (h i)

/-- Settles O1: the opcodes decode to their commands and nothing else decodes. -/
theorem decodeAgreesWithEncode : Obligations.DecodeAgreesWithEncode :=
  ⟨fun _ _ => decode_eq_ok_iff, fun _ => decode_illegal⟩

/-- Settles O2: the twelve values are the opcodes that `encode` gives. -/
theorem opcodeMapDecodes : Obligations.OpcodeMapDecodes :=
  ⟨decode_encode .nop, decode_encode .crcInit, decode_encode .crcByte, decode_encode .crcBuf, decode_encode .crcAcc,
    decode_encode .ldU16, decode_encode .ldI16, decode_encode .ldF32, decode_encode .stU16, decode_encode .stI16,
    decode_encode .stF32, decode_encode .decodeFrame⟩

/-- Settles O5: the write reaches CMD, and its value is no opcode. -/
theorem illegalCommandRaisesIllegalOp : Obligations.IllegalCommandRaisesIllegalOp := by
  intro s v rest hnext hillegal
  have hstep : step s = issueCommand v { s with pending := rest } := step_cons hnext
  rw [hstep, issueCommand_illegal hillegal]
  rfl

/-- No command stops the machine: a fault of the spec is a next state (R170). -/
theorem exec_completes (i : Instr) (s : State) : ∃ t, exec i s = .next t := by
  rcases exec_cases i s with
    ⟨_, -, -, hfault⟩ |
    ⟨-, ⟨-, hnop⟩ | ⟨-, _, _, hcrc⟩ | ⟨-, _, _, hload⟩ | ⟨-, _, -, hstore⟩ | ⟨-, hdecode⟩⟩
  · exact ⟨_, hfault⟩
  · exact ⟨_, hnop⟩
  · exact ⟨_, hcrc⟩
  · exact ⟨_, hload⟩
  · exact ⟨_, hstore⟩
  · exact ⟨_, hdecode⟩

/-! ### The lines of an expansion -/

section
variable {vars : HostVars} {s : State} {e f : HostExpr} {x y : Word}

theorem runLines_append_of_run {ls ms : List HostLine} {h k : HostRun} (hls : runLines ls h = some k) :
    runLines (ls ++ ms) h = runLines ms k := by
  induction ls generalizing h with
  | nil =>
    obtain rfl : h = k := Option.some.inj hls
    rfl
  | cons l ls ih =>
    obtain ⟨h', hl, hls'⟩ : ∃ h', l.run h = some h' ∧ runLines ls h' = some k := by
      simpa [runLines, Option.bind_eq_some_iff] using hls
    rw [List.cons_append, runLines_cons_of_run hl, ih hls']

/-- An expansion that writes the operand registers and then the opcode performs its command on them. -/
theorem performs_of_operands {p : Pseudo} {i : Instr} {operands : State} {ls : List HostLine}
    (hexpand : p.expand = ls ++ [cmdLine i]) (hls : runLines ls ⟨vars, s⟩ = some ⟨vars, operands⟩) :
    p.Performs i vars s operands := by
  obtain ⟨t, ht⟩ := exec_completes i { operands with cmd := encode i }
  refine ⟨t, ht, ?_⟩
  rw [hexpand, runLines_append_of_run hls, runLines_cons_of_run (run_cmdLine ht), runLines_nil]

/-- `wr A0, e`. -/
theorem runLines_offset (he : e.eval vars = some x) :
    runLines [.wr .a0 e] ⟨vars, s⟩ = some ⟨vars, { s with a0 := x }⟩ :=
  runLines_cons_of_run (run_wr .a0 he rfl)

/-- `wr A0, e ; wr A1, f`. -/
theorem runLines_offset_count (he : e.eval vars = some x) (hf : f.eval vars = some y) :
    runLines [.wr .a0 e, .wr .a1 f] ⟨vars, s⟩ = some ⟨vars, { s with a0 := x, a1 := y }⟩ := by
  rw [runLines_cons_of_run (run_wr .a0 he rfl)]
  exact runLines_cons_of_run (run_wr .a1 hf rfl)

/-- `wr CW, f ; wr A0, e`. -/
theorem runLines_value_offset (he : e.eval vars = some x) (hf : f.eval vars = some y) :
    runLines [.wr .cw f, .wr .a0 e] ⟨vars, s⟩ = some ⟨vars, { s with a0 := x, cw := y }⟩ := by
  rw [runLines_cons_of_run (run_wr .cw hf rfl)]
  exact runLines_offset he

/-- The address that `wbs` writes for its byte `k`: the first one is the operand itself. -/
theorem eval_byteAddress (he : e.eval vars = some x) (k : Nat) :
    (if k = 0 then e else .add e (.lit (BitVec.ofNat 32 k))).eval vars = some (x + BitVec.ofNat 32 k) := by
  by_cases hk : k = 0
  · simp [hk, he]
  · simp [hk, he, HostExpr.eval]

/-- The lines of `wbs` from byte `k` on write their bytes at x + k, x + k + 1, …. -/
theorem runLines_byteLines (he : e.eval vars = some x) (k : Nat) (bs : List Byte) :
    runLines (byteLines e k bs) ⟨vars, s⟩ =
      some ⟨vars, (bs.zipIdx k).foldl (fun t p => bufWrite (x + BitVec.ofNat 32 p.2) p.1 t) s⟩ := by
  induction bs generalizing k s with
  | nil => rfl
  | cons b bs ih =>
    have hbyte : (b.setWidth 32).setWidth 8 = b := by simp
    rw [byteLines, runLines_cons_of_run (run_wb (eval_byteAddress he k) rfl), hbyte, ih]
    rfl

end

/-- Settles O60, row by row: the lines before the write to CMD, then the command. -/
theorem pseudoInstructionsExpand : Obligations.PseudoInstructionsExpand := by
  intro s vars e f x y he hf
  have hoffset := runLines_offset (s := s) he
  have hcount := runLines_offset_count (s := s) he hf
  have hvalue := runLines_value_offset (s := s) he hf
  refine ⟨?bare, ?crcByte, ?crcBuf, ?crcAcc, ?ldU16, ?ldI16, ?ldF32, ?stU16, ?stU16Value, ?stI16, ?stI16Value,
    ?stF32, ?stF32Value, ?decodeFrame, ?wbs, ?setlen⟩
  case bare => exact fun i => performs_of_operands (ls := []) rfl rfl
  case crcBuf | crcAcc => exact performs_of_operands rfl hcount
  case stU16Value | stI16Value | stF32Value => exact performs_of_operands rfl hvalue
  case wbs => exact fun bs => runLines_byteLines he 0 bs
  case setlen => exact runLines_cons_of_run (run_wr .fbLen he rfl)
  case crcByte | ldU16 | ldI16 | ldF32 | stU16 | stI16 | stF32 | decodeFrame =>
    exact performs_of_operands rfl hoffset

end Sys2Proof.Machine
end

section
/-! The CRC commands (R100 to R107) and the range faults (R104, R171). The shift is linear over exclusive or and
injective, and so is the step in the register and in the byte. A range can be folded in two parts, or by one CRC_BYTE
per byte. -/

namespace Sys2Proof.Machine

/-! ### The shift of R101, bit by bit -/

/-- Bit i after the shift: the bit above it, and the polynomial where bit 0 was set. -/
theorem getLsbD_crcShift (c : Half) (i : Nat) :
    (crcShift c).getLsbD i = (c.getLsbD (i + 1) ^^ (c.getLsbD 0 && crcPoly.getLsbD i)) := by
  rw [crcShift, Nat.add_comm i 1]
  cases c.getLsbD 0
  case false => simp
  case true => simp

theorem crcShift_xor (c d : Half) : crcShift (c ^^^ d) = crcShift c ^^^ crcShift d := by
  refine BitVec.eq_of_getLsbD_eq fun i _ => ?_
  simp only [getLsbD_crcShift, BitVec.getLsbD_xor, Bool.and_xor_distrib_right, Bool.xor_assoc, Bool.xor_left_comm]

/-- The polynomial has its bit 15 set, and no bit of the argument is shifted in there. -/
theorem getLsbD_crcShift_top (c : Half) : (crcShift c).getLsbD 15 = c.getLsbD 0 := by
  have hpoly : crcPoly.getLsbD 15 = true := by decide
  rw [getLsbD_crcShift, BitVec.getLsbD_of_ge c 16 le_rfl, hpoly, Bool.false_xor, Bool.and_true]

/-- Bit 15 of the result tells whether the polynomial came in; what it was added to is the argument shifted. -/
theorem crcShift_injective : Function.Injective crcShift := by
  intro c d h
  have hlow : c.getLsbD 0 = d.getLsbD 0 := by rw [← getLsbD_crcShift_top, ← getLsbD_crcShift_top, h]
  refine BitVec.eq_of_getLsbD_eq fun i _ => ?_
  cases i with
  | zero => exact hlow
  | succ i =>
    have hbit : (crcShift c).getLsbD i = (crcShift d).getLsbD i := by rw [h]
    rw [getLsbD_crcShift, getLsbD_crcShift, hlow] at hbit
    exact Bool.xor_left_inj.mp hbit

/-! ### The step and the fold -/

theorem crcShifts_eq_iterate (n : Nat) (c : Half) : crcShifts n c = crcShift^[n] c := by
  induction n generalizing c with
  | zero => rfl
  | succ n ih => exact ih (crcShift c)

theorem crcShifts_xor (n : Nat) (c d : Half) : crcShifts n (c ^^^ d) = crcShifts n c ^^^ crcShifts n d := by
  induction n generalizing c d with
  | zero => rfl
  | succ n ih => rw [crcShifts, crcShift_xor, ih, crcShifts, crcShifts]

theorem crcShifts_injective (n : Nat) : Function.Injective (crcShifts n) := by
  rw [funext (crcShifts_eq_iterate n)]
  exact crcShift_injective.iterate n

theorem crcStep_injective_register (b : Byte) : Function.Injective (crcStep · b) :=
  fun _ _ h => (BitVec.xor_left_inj _).mp (crcShifts_injective 8 h)

theorem crcStep_injective_byte (c : Half) : Function.Injective (crcStep c) := by
  intro x y h
  have hwide : x.setWidth 16 = y.setWidth 16 := (BitVec.xor_right_inj _).mp (crcShifts_injective 8 h)
  simpa using congrArg (BitVec.setWidth 8) hwide

theorem crcFold_eq_foldl (c : Half) (bs : List Byte) : crcFold c bs = bs.foldl crcStep c := by
  induction bs generalizing c with
  | nil => rfl
  | cons b bs ih => exact ih (crcStep c b)

theorem crcFold_injective_register (bs : List Byte) : Function.Injective (crcFold · bs) := by
  induction bs with
  | nil => exact fun _ _ h => h
  | cons b bs ih => exact ih.comp (crcStep_injective_register b)

/-- Settles O10: `crcShifts` iterates the shift, and `crcFold` is the left fold of the step. -/
theorem crcIsTheModbusAlgorithm : Obligations.CrcIsTheModbusAlgorithm :=
  ⟨fun c b => crcShifts_eq_iterate 8 (c ^^^ b.setWidth 16), crcFold_eq_foldl crcInitial⟩

/-- Settles O15: widening the byte, the exclusive or and the shifts are each linear. -/
theorem crcStepIsLinear : Obligations.CrcStepIsLinear := by
  intro c d a b
  have hregister : c ^^^ d ^^^ (a ^^^ b).setWidth 16 = (c ^^^ a.setWidth 16) ^^^ (d ^^^ b.setWidth 16) := by
    rw [BitVec.setWidth_xor]
    ac_rfl
  rw [crcStep, hregister, crcShifts_xor, crcStep, crcStep]

/-- Settles O16: the step tells the two bytes apart, and no byte after them brings the registers together. -/
theorem oneChangedByteChangesCrc : Obligations.OneChangedByteChangesCrc := by
  intro before after x y hne h
  rw [crc16, crc16, crcFold_append, crcFold_append] at h
  exact hne (crcStep_injective_byte _ (crcFold_injective_register after h))

/-! ### The four commands -/

/-- Settles O8, by the command's definition. -/
theorem crcInitSetsAllOnes : Obligations.CrcInitSetsAllOnes :=
  fun _ => rfl

/-- Settles O9: the low byte of `high ++ b` is b. -/
theorem crcByteFoldsLowByte : Obligations.CrcByteFoldsLowByte := by
  intro s high b ha0
  have hbyte : operandByte s = b := by rw [operandByte, ha0, extractLsb'_append_low]
  rw [exec, execCrcByte, hbyte]

/-- Settles O11: the range check passes, and the reads are in closed form. -/
theorem crcBufComputesCrc : Obligations.CrcBufComputesCrc := by
  intro s hrange
  rw [← fbBytes_eq, ← fbDraws_eq]
  exact guardRange_of_le hrange

/-- Settles O12: the range check passes, and the reads are in closed form. -/
theorem crcAccContinuesCrc : Obligations.CrcAccContinuesCrc := by
  intro s hrange
  rw [← fbBytes_eq, ← fbDraws_eq]
  exact guardRange_of_le hrange

/-- A ranged command whose range does not lie below FB_LEN raises Fault(RANGE) (R104, R173). -/
theorem exec_of_lt {s : State} {i : Instr} {n : Nat} (hn : rangeOf s i = some n)
    (h : s.fbLen.toNat < s.a0.toNat + n) : exec i s = .next (raiseFault .range s) := by
  rcases exec_cases i s with ⟨_, -, -, hfault⟩ | ⟨hrange, -⟩
  · exact hfault
  · exact absurd (hrange n hn) (Nat.not_le.mpr h)

/-- Settles O26: n is in each case the length of the command's range. -/
theorem outOfRangeCommandFaults : Obligations.OutOfRangeCommandFaults := by
  intro s i n hcommand hlt
  have hn : rangeOf s i = some n := by
    rcases hcommand with
      ⟨rfl | rfl, rfl⟩ | ⟨rfl | rfl | rfl | rfl, rfl⟩ | ⟨rfl | rfl, rfl⟩ | ⟨rfl, rfl⟩ <;> rfl
  exact exec_of_lt hn hlt

/-! ### A range in two parts -/

section
variable {s : State} {off n : Nat} (h : off + n ≤ s.fbLen.toNat)
include h

/-- Operands of a range below FB_LEN keep their value in a register. -/
theorem toNat_operands_of_le : (BitVec.ofNat 32 off).toNat = off ∧ (BitVec.ofNat 32 n).toNat = n := by
  have := s.fbLen.isLt
  exact ⟨Nat.mod_eq_of_lt (by omega), Nat.mod_eq_of_lt (by omega)⟩

theorem exec_crcBuf_range :
    exec .crcBuf { s with a0 := BitVec.ofNat 32 off, a1 := BitVec.ofNat 32 n } =
      .next { s with
        a0 := BitVec.ofNat 32 off, a1 := BitVec.ofNat 32 n
        crc := crc16 (bytesRead s.fb s.draws off n), draws := s.draws + unwritten s.fb off n } := by
  obtain ⟨hoff, hcount⟩ := toNat_operands_of_le h
  simpa only [hoff, hcount] using
    crcBufComputesCrc { s with a0 := BitVec.ofNat 32 off, a1 := BitVec.ofNat 32 n } (by simpa only [hoff, hcount])

theorem exec_crcAcc_range :
    exec .crcAcc { s with a0 := BitVec.ofNat 32 off, a1 := BitVec.ofNat 32 n } =
      .next { s with
        a0 := BitVec.ofNat 32 off, a1 := BitVec.ofNat 32 n
        crc := crcFold s.crc (bytesRead s.fb s.draws off n), draws := s.draws + unwritten s.fb off n } := by
  obtain ⟨hoff, hcount⟩ := toNat_operands_of_le h
  simpa only [hoff, hcount] using
    crcAccContinuesCrc { s with a0 := BitVec.ofNat 32 off, a1 := BitVec.ofNat 32 n } (by simpa only [hoff, hcount])

end

/-- Settles O13: the reads of the whole range are those of its first part and then those of its second. -/
theorem splitRangeGivesSameCrc : Obligations.SplitRangeGivesSameCrc := by
  intro s off n m hrange
  refine ⟨_, _, _, exec_crcBuf_range (by omega), exec_crcAcc_range hrange, exec_crcBuf_range (by omega), ?_, ?_⟩
  · rw [bytesRead_add, crc16, crc16, crcFold_append]
  · rw [unwritten_add, Nat.add_assoc]

/-! ### Byte by byte -/

/-- The two accesses of one CRC_BYTE fold their byte into CRC (R83, R103). -/
theorem run_crcByteAccesses {s : State} {b : Byte} {rest : List Access} (k : Nat)
    (h : s.pending = crcByteAccesses b ++ rest) :
    Host.Core.run core (k + 2) s =
      Host.Core.run core k { s with
        a0 := b.setWidth 32, cmd := encode .crcByte, crc := crcStep s.crc b, pending := rest } := by
  have hwrite : step s = .next { s with a0 := b.setWidth 32, pending := issue .crcByte :: rest } := step_cons h
  rw [run_succ hwrite]
  refine run_succ ?_
  rw [step_issue rfl]
  exact crcByteFoldsLowByte _ 0#24 b (setWidth_byte_eq_append b)

/-- One CRC_BYTE per byte folds the bytes into CRC and leaves only A0 and CMD changed besides. -/
theorem run_flatMap_crcByteAccesses (bs : List Byte) {s : State} (h : s.pending = bs.flatMap crcByteAccesses) :
    ∃ a0 cmd, Host.Core.run core (2 * bs.length) s =
      .next { s with a0 := a0, cmd := cmd, crc := crcFold s.crc bs, pending := [] } := by
  induction bs generalizing s with
  | nil =>
    refine ⟨s.a0, s.cmd, ?_⟩
    rw [← show s.pending = [] from h]
    rfl
  | cons b bs ih =>
    obtain ⟨a0, cmd, hrun⟩ := ih (s := { s with
      a0 := b.setWidth 32, cmd := encode .crcByte, crc := crcStep s.crc b
      pending := bs.flatMap crcByteAccesses }) rfl
    exact ⟨a0, cmd, (run_crcByteAccesses (2 * bs.length) h).trans hrun⟩

/-- Settles O14: CRC_INIT puts 0xFFFF in CRC, from which the host's CRC_BYTE commands fold the bytes CRC_BUF reads. -/
theorem crcBufEqualsByteByByte : Obligations.CrcBufEqualsByteByByte := by
  intro s bs hrange hlength hholds
  have hbytes : bytesRead s.fb s.draws s.a0.toNat s.a1.toNat = bs := by
    rw [← hlength]
    exact bytesRead_of_holds s.fb s.draws s.a0.toNat hholds
  have hinit : step { s with pending := issue .crcInit :: bs.flatMap crcByteAccesses } =
      .next { s with pending := bs.flatMap crcByteAccesses, cmd := encode .crcInit, crc := crcInitial } :=
    (step_issue rfl).trans (crcInitSetsAllOnes _)
  obtain ⟨a0, cmd, hrun⟩ := run_flatMap_crcByteAccesses bs (s := { s with
    pending := bs.flatMap crcByteAccesses, cmd := encode .crcInit, crc := crcInitial }) rfl
  rw [← run_succ hinit, Nat.add_comm] at hrun
  refine ⟨_, _, crcBufComputesCrc s hrange, hrun, ?_, rfl, rfl, fun _ => rfl⟩
  rw [hbytes]
  rfl

end Sys2Proof.Machine
end

section
/-! The codec commands (R120 to R126, R128): the conversions are inverse to each other, a load puts the bytes it reads
in CW, a store writes the bytes of CW, and each undoes the other on the bytes at A0. -/

namespace Sys2Proof.Machine

/-! ### The conversions -/

theorem fromBytes16_toBytes16 (v : Half) : fromBytes16 (toBytes16 v) = v :=
  (fromBytes16_pair _ _).trans (append_bytes16 v)

theorem fromBytes32_toBytes32 (v : Word) : fromBytes32 (toBytes32 v) = v :=
  (fromBytes32_quad _ _ _ _).trans (append_bytes32 v)

theorem toBytes16_fromBytes16 {bs : List Byte} (h : bs.length = 2) : toBytes16 (fromBytes16 bs) = bs := by
  obtain ⟨a, b, rfl⟩ := List.length_eq_two.mp h
  rw [fromBytes16_pair, toBytes16_append]

theorem toBytes32_fromBytes32 {bs : List Byte} (h : bs.length = 4) : toBytes32 (fromBytes32 bs) = bs := by
  obtain ⟨a, b, c, d, rfl⟩ := List.length_eq_four.mp h
  rw [fromBytes32_quad, toBytes32_append]

/-- Settles O22: both conversions are the concatenation and the slicing of bytes. -/
theorem conversionsAreInverse : Obligations.ConversionsAreInverse :=
  ⟨fromBytes16_toBytes16, fromBytes32_toBytes32, fun _ => toBytes16_fromBytes16, fun _ => toBytes32_fromBytes32⟩

/-! ### Loads of any bytes in range -/

section
variable (s : State) (a : Nat)

/-- The half at `a` is its two bytes, each the written one or a free byte (R120, R199). -/
theorem memRead16_eq : memRead16 s a = byteRead s.fb s.draws a 0 ++ byteRead s.fb s.draws a 1 := by
  rw [memRead16, fbBytes_eq, bytesRead_two, fromBytes16_pair]

/-- The word at `a` is its four bytes, each the written one or a free byte (R120, R199). -/
theorem memRead32_eq :
    memRead32 s a = byteRead s.fb s.draws a 0 ++ byteRead s.fb s.draws a 1 ++
      byteRead s.fb s.draws a 2 ++ byteRead s.fb s.draws a 3 := by
  rw [memRead32, fbBytes_eq]
  exact fromBytes32_quad _ _ _ _

end

/-- Settles O17: the range check passes, and zero extension puts 16 zero bits in front of the half. -/
theorem loadU16ZeroExtends : Obligations.LoadU16ZeroExtends := by
  intro s hrange
  rw [← memRead16_eq, ← fbDraws_eq, ← setWidth_eq_append]
  exact guardRange_of_le hrange

/-- Settles O18: the range check passes, and sign extension puts copies of the top bit in front of the half. -/
theorem loadI16SignExtends : Obligations.LoadI16SignExtends := by
  intro s hrange
  rw [← signExtend_eq_append, ← memRead16_eq, ← fbDraws_eq]
  exact guardRange_of_le hrange

/-- Settles O19: the range check passes, and the word read is the concatenation of its bytes. -/
theorem loadF32CopiesPattern : Obligations.LoadF32CopiesPattern := by
  intro s hrange
  rw [← memRead32_eq, ← fbDraws_eq]
  exact guardRange_of_le hrange

/-! ### Stores -/

/-- ST_U16 and ST_I16 are one operation (R124, R125). -/
theorem exec_store16_of_le {s : State} {i : Instr} (hi : i = .stU16 ∨ i = .stI16)
    (h : s.a0.toNat + 2 ≤ s.fbLen.toNat) :
    exec i s = .next (memWrite s s.a0.toNat (toBytes16 (operandHalf s))) := by
  rcases hi with rfl | rfl <;> exact guardRange_of_le h

/-- A byte outside those written reads as before. -/
theorem read_writeBytes_outside (fb : Memory) {a x : Nat} {bs : List Byte} (h : x < a ∨ a + bs.length ≤ x) :
    (fb.writeBytes a bs).read x = fb.read x := by
  rw [Memory.read_writeBytes, dif_neg (by omega)]

/-- Settles O20: CW[15:0] is `high ++ low`, whose bytes the store writes; out of range it is a RANGE fault. -/
theorem store16WritesTwoBytes : Obligations.Store16WritesTwoBytes := by
  intro s i top high low hi hcw
  refine ⟨fun hrange => ?_, exec_of_lt (by rcases hi with rfl | rfl <;> rfl)⟩
  have hbytes : toBytes16 (operandHalf s) = [high, low] := by
    rw [operandHalf, hcw, extractLsb'_append_half, toBytes16_append]
  have hstored : Holds (s.fb.writeBytes s.a0.toNat [high, low]) s.a0.toNat [high, low] := holds_writeBytes _ _ _
  refine ⟨memWrite s s.a0.toNat [high, low], ?_, rfl, ?_⟩
  · rw [exec_store16_of_le hi hrange, hbytes]
  · exact ⟨hstored 0 (by simp), hstored 1 (by simp), fun _ hx => read_writeBytes_outside s.fb hx⟩

/-- Settles O21: the store writes the four bytes of CW; out of range it is a RANGE fault. -/
theorem storeF32WritesFourBytes : Obligations.StoreF32WritesFourBytes := by
  intro s b0 b1 b2 b3 hcw
  refine ⟨fun hrange => ?_, exec_of_lt rfl⟩
  have hstored : Holds (s.fb.writeBytes s.a0.toNat [b0, b1, b2, b3]) s.a0.toNat [b0, b1, b2, b3] :=
    holds_writeBytes _ _ _
  refine ⟨memWrite s s.a0.toNat [b0, b1, b2, b3], ?_, rfl, ?_⟩
  · rw [exec_stF32_of_le hrange, hcw, toBytes32_append]
  · exact ⟨hstored 0 (by simp), hstored 1 (by simp), hstored 2 (by simp), hstored 3 (by simp),
      fun _ hx => read_writeBytes_outside s.fb hx⟩

/-! ### A store then a load -/

section
variable {s : State}

/-- LD_I16 of a half that has been written loads it and changes nothing else (R122). -/
theorem exec_ldI16_of_holds {v : Half} (h : Holds s.fb s.a0.toNat (toBytes16 v))
    (hrange : s.a0.toNat + 2 ≤ s.fbLen.toNat) : exec .ldI16 s = .next { s with cw := v.signExtend 32 } := by
  obtain ⟨hread, hdraws⟩ := memRead16_of_holds h
  rw [exec, execLdI16, operandOffset_eq, guardRange_of_le hrange, hread, hdraws]

/-- LD_F32 of a word that has been written loads it and changes nothing else (R123). -/
theorem exec_ldF32_of_holds {v : Word} (h : Holds s.fb s.a0.toNat (toBytes32 v))
    (hrange : s.a0.toNat + 4 ≤ s.fbLen.toNat) : exec .ldF32 s = .next { s with cw := v } := by
  obtain ⟨hread, hdraws⟩ := memRead32_of_holds h
  rw [exec, execLdF32, operandOffset_eq, guardRange_of_le hrange, hread, hdraws]

end

theorem operandHalf_eq_setWidth (s : State) : operandHalf s = s.cw.setWidth 16 :=
  (BitVec.setWidth_eq_extractLsb' (by decide)).symm

/-- Settles O23: the bytes of the operand stand at A0 after the store, and each load reads them back. -/
theorem storeThenLoadRoundTrips : Obligations.StoreThenLoadRoundTrips := by
  intro s
  rw [← operandHalf_eq_setWidth]
  refine ⟨fun h => ⟨_, exec_stF32_of_le h, ?_⟩, fun h => ⟨_, exec_store16_of_le (.inl rfl) h, ?_⟩,
    fun h => ⟨_, exec_store16_of_le (.inr rfl) h, ?_⟩⟩
  · exact exec_ldF32_of_holds (holds_writeBytes s.fb s.a0.toNat (toBytes32 s.cw)) h
  · exact exec_ldU16_of_holds (holds_writeBytes s.fb s.a0.toNat (toBytes16 (operandHalf s))) h
  · exact exec_ldI16_of_holds (holds_writeBytes s.fb s.a0.toNat (toBytes16 (operandHalf s))) h

/-! ### A load then a store -/

/-- The low half of a sign-extended half is that half. -/
theorem setWidth_signExtend_half (v : Half) : (v.signExtend 32).setWidth 16 = v := by
  ext i hi
  rw [BitVec.getElem_setWidth, BitVec.getLsbD_signExtend, if_pos hi, BitVec.getLsbD_eq_getElem hi,
    decide_eq_true (show i < 32 by omega), Bool.true_and]

section
variable {s : State} {i : Instr} {v : Half} (hw : s.fb.wf)
include hw

/-- Writing the bytes that are there already only clears VALID (R26, R59). -/
theorem memWrite_of_holds {a : Nat} {bs : List Byte} (h : Holds s.fb a bs) :
    memWrite s a bs = { s with valid := false } := by
  rw [memWrite, writeBytes_of_holds h hw, clearValid]

/-- A 16-bit store of the half that stands at A0 already only clears VALID (R124, R125). -/
theorem exec_store16_of_holds (hi : i = .stU16 ∨ i = .stI16) (hcw : s.cw.setWidth 16 = v)
    (h : Holds s.fb s.a0.toNat (toBytes16 v)) (hrange : s.a0.toNat + 2 ≤ s.fbLen.toNat) :
    exec i s = .next { s with valid := false } := by
  rw [exec_store16_of_le hi hrange, operandHalf_eq_setWidth, hcw, memWrite_of_holds hw h]

/-- ST_F32 of the word that stands at A0 already only clears VALID (R126). -/
theorem exec_stF32_of_holds (h : Holds s.fb s.a0.toNat (toBytes32 s.cw)) (hrange : s.a0.toNat + 4 ≤ s.fbLen.toNat) :
    exec .stF32 s = .next { s with valid := false } := by
  rw [exec_stF32_of_le hrange, memWrite_of_holds hw h]

end

/-- Settles O24: the written bytes are those of the value they convert to, which the load puts in CW. -/
theorem loadThenStoreRewritesSameBytes : Obligations.LoadThenStoreRewritesSameBytes := by
  intro s bs ld st hkind hrange hholds hw
  rcases hkind with ⟨rfl, rfl, hlen⟩ | ⟨rfl, rfl, hlen⟩ | ⟨rfl, rfl, hlen⟩ <;> rw [hlen] at hrange
  · rw [← toBytes16_fromBytes16 hlen] at hholds
    exact ⟨_, exec_ldU16_of_holds hholds hrange,
      exec_store16_of_holds hw (.inl rfl) (by simp) hholds hrange⟩
  · rw [← toBytes16_fromBytes16 hlen] at hholds
    exact ⟨_, exec_ldI16_of_holds hholds hrange,
      exec_store16_of_holds hw (.inr rfl) (setWidth_signExtend_half _) hholds hrange⟩
  · rw [← toBytes32_fromBytes32 hlen] at hholds
    exact ⟨_, exec_ldF32_of_holds hholds hrange, exec_stF32_of_holds hw hholds hrange⟩

end Sys2Proof.Machine
end

section
/-! The frame parser (R140 to R154). The pure decode in its strict order and the frame that decodes to itself; DECODE,
whose parse of written bytes is that of the pure decode and depends on the bytes of R145 only; and the host's check of a
decoded frame. -/

namespace Sys2Proof.Machine

/-! ### The pure decode -/

theorem Header.frameLen_eq (h : Header) : h.frameLen = 11 + h.len.toNat := by
  simp only [Header.frameLen, headerSize, checksumSize]
  omega

section
variable {view : List Byte}

theorem decodeView_of_short (h : view.length < 11) : decodeView view = .tooShort := if_pos h

theorem decodeView_of_badSync {x y : Byte} (hlong : 9 ≤ view.length) (hsync : ¬(x = 0xAA#8 ∧ y = 0x55#8)) :
    decodeView (x :: y :: view) = .badSync := by
  have hmin : ¬(x :: y :: view).length < minFrame := by simp [minFrame, hlong]
  have hne : (x :: y :: view).take 2 ≠ [sync1, sync2] := by simpa [sync1, sync2] using hsync
  rw [decodeView, if_neg hmin, if_pos hne]

/-- From 11 bytes on with the sync bytes, the len field alone tells Incomplete from Ok (R140 steps 3 to 5). -/
theorem decodeView_of_sync (ver typ seq c1 c0 l1 l0 : Byte) (hlong : 2 ≤ view.length) :
    decodeView (0xAA#8 :: 0x55#8 :: ver :: typ :: seq :: c1 :: c0 :: l1 :: l0 :: view) =
      if view.length < 2 + (l1 ++ l0).toNat then .incomplete ⟨ver, typ, seq, c1 ++ c0, l1 ++ l0⟩
      else .ok ⟨ver, typ, seq, c1 ++ c0, l1 ++ l0⟩ (view.take (l1 ++ l0).toNat)
        (fromBytes16 ((view.drop (l1 ++ l0).toNat).take 2)) (11 + (l1 ++ l0).toNat) := by
  have hheader : Header.ofBytes (ver :: typ :: seq :: c1 :: c0 :: l1 :: l0 :: view) =
      ⟨ver, typ, seq, c1 ++ c0, l1 ++ l0⟩ := by
    simp [Header.ofBytes, fromBytes16_pair]
  have hmin : ¬(0xAA#8 :: 0x55#8 :: ver :: typ :: seq :: c1 :: c0 :: l1 :: l0 :: view).length < minFrame := by
    simp [minFrame]
    omega
  have htail (k : Nat) :
      (0xAA#8 :: 0x55#8 :: ver :: typ :: seq :: c1 :: c0 :: l1 :: l0 :: view).drop (headerSize + k) = view.drop k := by
    rw [Nat.add_comm]
    rfl
  simp only [decodeView, List.drop_succ_cons, List.drop_zero, hheader, Header.frameLen_eq, htail]
  rw [if_neg hmin, if_neg (by simp [sync1, sync2])]
  exact if_congr (by simp; omega) rfl rfl

end

/-- What an Ok result says of the view: the whole frame is there, and the payload is the part after the header. -/
theorem eq_of_decodeView_ok {view payload : List Byte} {h : Header} {crc : Half} {consumed : Nat}
    (hview : decodeView view = .ok h payload crc consumed) :
    consumed = h.frameLen ∧ h.frameLen ≤ view.length ∧ payload = (view.drop headerSize).take h.len.toNat := by
  simp only [decodeView] at hview
  split_ifs at hview with hshort hsync hincomplete
  obtain ⟨rfl, rfl, -, rfl⟩ := DecodeResult.ok.inj hview
  exact ⟨rfl, Nat.le_of_not_lt hincomplete, rfl⟩

/-- Settles O31: step by step in the order of R140. -/
theorem pureDecodeLaws : Obligations.PureDecodeLaws := by
  refine ⟨fun v h => decodeView_of_short (by omega), fun x y v => decodeView_of_badSync, ?_, ?_⟩
  · intro ver typ seq c1 c0 l1 l0 v hlong hincomplete
    rw [decodeView_of_sync ver typ seq c1 c0 l1 l0 hlong, if_pos hincomplete]
  · intro ver typ seq c1 c0 l1 l0 k1 k0 payload more hlen
    rw [decodeView_of_sync _ _ _ _ _ _ _ (by simp; omega), if_neg (by simp; omega)]
    simp [← hlen, fromBytes16_pair]

/-! ### The frame a host builds -/

section
variable (typ seq : Byte) (cmd : Half) (payload : List Byte)

@[simp] theorem checkedPart_length : (checkedPart typ seq cmd payload).length = 7 + payload.length := by
  simp [checkedPart, toBytes16]
  omega

theorem wireFrame_length : (wireFrame typ seq cmd payload).length = 11 + payload.length := by
  simp [wireFrame, toBytes16]
  omega

/-- Frame bytes 2 to 9 + len - 1 are those that the checksum covers (R109). -/
theorem wireFrame_checked :
    ((wireFrame typ seq cmd payload).drop 2).take (7 + payload.length) = checkedPart typ seq cmd payload :=
  List.take_left' (checkedPart_length typ seq cmd payload)

theorem decodeView_wireFrame (more : List Byte) (h : payload.length ≤ 65535) :
    decodeView (wireFrame typ seq cmd payload ++ more) =
      .ok ⟨protocolVersion, typ, seq, cmd, BitVec.ofNat 16 payload.length⟩ payload
        (crc16 (checkedPart typ seq cmd payload)) (11 + payload.length) := by
  have hlen : (BitVec.ofNat 16 payload.length).toNat = payload.length := Nat.mod_eq_of_lt (by omega)
  generalize hcrc : crc16 (checkedPart typ seq cmd payload) = crc
  have hbytes : wireFrame typ seq cmd payload ++ more =
      0xAA#8 :: 0x55#8 :: protocolVersion :: typ :: seq :: cmd.extractLsb' 8 8 :: cmd.extractLsb' 0 8 ::
        (BitVec.ofNat 16 payload.length).extractLsb' 8 8 :: (BitVec.ofNat 16 payload.length).extractLsb' 0 8 ::
          (payload ++ crc.extractLsb' 8 8 :: crc.extractLsb' 0 8 :: more) := by
    rw [wireFrame, hcrc]
    simp [checkedPart, toBytes16, sync1, sync2]
  obtain ⟨-, -, -, hok⟩ := pureDecodeLaws
  rw [hbytes, hok _ _ _ _ _ _ _ _ _ _ _ (by rw [append_bytes16, hlen]), append_bytes16, append_bytes16,
    append_bytes16]

end

/-- Settles O32: the frame's bytes are those of the Ok law of the pure decode, and its checked part is the part that
the checksum was made of. -/
theorem builtFrameDecodesToItself : Obligations.BuiltFrameDecodesToItself := by
  intro typ seq cmd payload more hlen
  rw [wireFrame_checked]
  exact ⟨decodeView_wireFrame typ seq cmd payload more hlen, wireFrame_length typ seq cmd payload⟩

end Sys2Proof.Machine
end

section
/-! NOP (R149), the group and id of a command code (R147), and the DECODE command (R141 to R148): one lemma for what
it records of its parse, one reading of the parse per outcome, and the bytes that the parse depends on. -/

namespace Sys2Proof.Machine

/-! ### NOP, group and id -/

/-- Settles O7: the step issues the NOP, whose opcode is 0. -/
theorem nopChangesNothing : Obligations.NopChangesNothing :=
  ⟨fun _ => rfl, fun _ _ hnext => step_issue (i := .nop) hnext⟩

/-- A byte of a half is the same byte of the word that a read of its register gives. -/
theorem extractLsb'_setWidth_half (v : Half) {k : Nat} (hk : k ≤ 8) :
    (v.setWidth 32).extractLsb' k 8 = v.extractLsb' k 8 := by
  ext i hi
  rw [BitVec.getElem_extractLsb', BitVec.getElem_extractLsb', BitVec.getLsbD_setWidth,
    decide_eq_true (show k + i < 32 by omega), Bool.true_and]

/-- Settles O59: F_CMD reads as the command code, zero-extended. -/
theorem groupAndIdAreTheCmdBytes : Obligations.GroupAndIdAreTheCmdBytes := by
  refine ⟨fun group id => ⟨?_, extractLsb'_append_low group id⟩, fun s => ⟨?_, ?_⟩⟩
  · exact (extractLsb'_append_high group id 0).trans (extractLsb'_self group)
  · exact extractLsb'_setWidth_half s.fCmd (by omega)
  · exact extractLsb'_setWidth_half s.fCmd (by omega)

/-! ### DECODE by its parse -/

/-- DECODE at a base up to FB_LEN records its parse of the view and counts the free bytes drawn (R141). -/
theorem exec_decodeFrame_of_parse {s : State} {p : Parse} {d : Nat} (hbase : s.a0.toNat ≤ s.fbLen.toNat)
    (hp : parseFb s.fb s.draws s.a0.toNat (s.fbLen.toNat - s.a0.toNat) = (p, d)) :
    exec .decodeFrame s = .next (recordParse s.a0.toNat p { s with draws := d }) := by
  rw [exec_decodeFrame, operandOffset_eq, guardRange_of_le hbase, decodeAt, hp]

/-- The header registers in terms of the base register, as the host computes them (R142, R144, R148). -/
theorem headerFields_eq (s : State) (base : Word) (h : Header) (crc : Half) :
    headerFields base.toNat h crc s = { s with
      fVer := h.ver, fType := h.typ, fSeq := h.seq, fCmd := h.cmd, fLen := h.len
      fPoff := base + 9#32, fCrc := crc, fCons := 11#32 + h.len.setWidth 32
      fPt := decide (0x80 ≤ h.typ.toNat ∧ h.typ.toNat ≤ 0xEF) } := by
  have hpoff : BitVec.ofNat 32 (base.toNat + headerSize) = base + 9#32 := by
    rw [BitVec.ofNat_add, BitVec.ofNat_toNat, BitVec.setWidth_eq, headerSize]
  have hcons : BitVec.ofNat 32 h.frameLen = 11#32 + h.len.setWidth 32 := by
    rw [Header.frameLen_eq, BitVec.ofNat_add, BitVec.ofNat_toNat]
  rw [headerFields, hpoff, hcons, isPassthrough, Bool.decide_and]

section
variable {fb : Memory} {draws base L : Nat}

theorem parseFb_of_short (h : L < 11) : parseFb fb draws base L = (.tooShort, draws) := if_pos h

theorem parseFb_of_badSync (hlong : 11 ≤ L)
    (hsync : ¬(byteRead fb draws base 0 = 0xAA#8 ∧ byteRead fb draws base 1 = 0x55#8)) :
    parseFb fb draws base L = (.badSync, draws + unwritten fb base 2) := by
  rw [parseFb_eq, if_neg (Nat.not_lt.mpr hlong), if_pos hsync]

variable (hsync1 : byteRead fb draws base 0 = 0xAA#8) (hsync2 : byteRead fb draws base 1 = 0x55#8)
include hsync1 hsync2

theorem parseFb_of_incomplete (hlong : 11 ≤ L) (hlen : L < 11 + (headerAt fb draws base).len.toNat) :
    parseFb fb draws base L = (.incomplete (headerAt fb draws base), draws + unwritten fb base 9) := by
  rw [parseFb_eq, if_neg (Nat.not_lt.mpr hlong), if_neg (not_not_intro ⟨hsync1, hsync2⟩), if_pos hlen]

theorem parseFb_of_complete {d tail : Nat} (hlen : 11 + (headerAt fb draws base).len.toNat ≤ L)
    (hd : d = draws + unwritten fb base 9) (htail : tail = base + 9 + (headerAt fb draws base).len.toNat) :
    parseFb fb draws base L =
      (.ok (headerAt fb draws base) (byteRead fb d tail 0 ++ byteRead fb d tail 1), d + unwritten fb tail 2) := by
  rw [parseFb_eq, if_neg (by omega), if_neg (not_not_intro ⟨hsync1, hsync2⟩), if_neg (Nat.not_lt.mpr hlen), hd,
    htail]

end

/-- Settles O27: the parse of a short view reads nothing. -/
theorem decodeTooShort : Obligations.DecodeTooShort :=
  fun _ hbase hshort => exec_decodeFrame_of_parse hbase (parseFb_of_short hshort)

/-- Settles O28: the parse stops after the two sync bytes. -/
theorem decodeBadSync : Obligations.DecodeBadSync :=
  fun _ hlong hsync => exec_decodeFrame_of_parse (by omega) (parseFb_of_badSync (by omega) hsync)

/-- Settles O29: the parse stops after the header, whose fields are shown. -/
theorem decodeIncomplete : Obligations.DecodeIncomplete := by
  rintro s len hsync1 hsync2 rfl hlong hlen
  rw [exec_decodeFrame_of_parse (by omega)
    (parseFb_of_incomplete hsync1 hsync2 (by omega) (by simp only [headerAt]; omega)), recordParse, headerFields_eq]
  rfl

/-- Settles O30: the parse reads the header and then the two bytes after the payload. -/
theorem decodeOk : Obligations.DecodeOk := by
  rintro s len d tail hsync1 hsync2 rfl hlen hd htail
  rw [exec_decodeFrame_of_parse (by omega)
    (parseFb_of_complete hsync1 hsync2 (by simp only [headerAt]; omega) hd htail), recordParse, headerFields_eq]
  rfl

/-! ### The bytes that DECODE reads -/

section
variable {s : State} {fb : Memory} (hreads : ∀ a, DecodeReads s a → fb.read a = s.fb.read a)
include hreads

theorem syncBytes_of_decodeReads (hlong : 11 ≤ s.fbLen.toNat - s.a0.toNat) :
    ∀ x, s.a0.toNat ≤ x → x < s.a0.toNat + 2 → fb.read x = s.fb.read x :=
  fun x hlow hhigh => hreads x (.sync hlong ⟨hlow, hhigh⟩)

theorem headerBytes_of_decodeReads (hlong : 11 ≤ s.fbLen.toNat - s.a0.toNat)
    (hsync : byteRead s.fb s.draws s.a0.toNat 0 = sync1 ∧ byteRead s.fb s.draws s.a0.toNat 1 = sync2) :
    ∀ x, s.a0.toNat ≤ x → x < s.a0.toNat + 9 → fb.read x = s.fb.read x := by
  intro x hlow hhigh
  rcases Nat.lt_or_ge x (s.a0.toNat + 2) with hlt | hge
  · exact syncBytes_of_decodeReads hreads hlong x hlow hlt
  · exact hreads x (.header hlong hsync ⟨hge, hhigh⟩)

theorem crcBytes_of_decodeReads
    (hsync : byteRead s.fb s.draws s.a0.toNat 0 = sync1 ∧ byteRead s.fb s.draws s.a0.toNat 1 = sync2)
    (hlong : 11 + (headerAt s.fb s.draws s.a0.toNat).len.toNat ≤ s.fbLen.toNat - s.a0.toNat) :
    ∀ x, s.a0.toNat + 9 + (headerAt s.fb s.draws s.a0.toNat).len.toNat ≤ x →
      x < s.a0.toNat + 9 + (headerAt s.fb s.draws s.a0.toNat).len.toNat + 2 → fb.read x = s.fb.read x :=
  fun x hlow hhigh => hreads x
    (.crc (headerAt s.fb s.draws s.a0.toNat).len rfl hlong hsync ⟨hlow, by omega⟩)

/-- The parse is the same in another memory with the bytes of R145: at each stage it reads those bytes, and they
tell whether it goes on to the next. -/
theorem parseFb_of_decodeReads :
    parseFb fb s.draws s.a0.toNat (s.fbLen.toNat - s.a0.toNat) =
      parseFb s.fb s.draws s.a0.toNat (s.fbLen.toNat - s.a0.toNat) := by
  rcases Nat.lt_or_ge (s.fbLen.toNat - s.a0.toNat) 11 with hshort | hlong
  · rw [parseFb_of_short hshort, parseFb_of_short hshort]
  have hsyncBytes := syncBytes_of_decodeReads hreads hlong
  have hbyte0 := byteRead_congr s.draws hsyncBytes (i := 0) (by omega)
  have hbyte1 := byteRead_congr s.draws hsyncBytes (i := 1) (by omega)
  by_cases hsync : byteRead s.fb s.draws s.a0.toNat 0 = sync1 ∧ byteRead s.fb s.draws s.a0.toNat 1 = sync2
  case neg =>
    rw [parseFb_of_badSync hlong hsync, parseFb_of_badSync hlong (by rwa [hbyte0, hbyte1]),
      unwritten_congr hsyncBytes]
  have hsync1 := hbyte0.trans hsync.1
  have hsync2 := hbyte1.trans hsync.2
  have hheaderBytes := headerBytes_of_decodeReads hreads hlong hsync
  have hheader := headerAt_congr s.draws hheaderBytes
  have hdraws := unwritten_congr hheaderBytes
  rcases Nat.lt_or_ge (s.fbLen.toNat - s.a0.toNat) (11 + (headerAt s.fb s.draws s.a0.toNat).len.toNat) with hlt | hge
  · rw [parseFb_of_incomplete hsync.1 hsync.2 hlong hlt,
      parseFb_of_incomplete hsync1 hsync2 hlong (by rwa [hheader]), hheader, hdraws]
  · have hcrcBytes := crcBytes_of_decodeReads hreads hsync hge
    rw [parseFb_of_complete hsync.1 hsync.2 hge rfl rfl,
      parseFb_of_complete hsync1 hsync2 (by rwa [hheader]) rfl rfl, hheader, hdraws,
      byteRead_congr _ hcrcBytes (i := 0) (by omega), byteRead_congr _ hcrcBytes (i := 1) (by omega),
      unwritten_congr hcrcBytes]

end

/-- What is recorded of a parse does not depend on FB. -/
theorem recordParse_fb (base : Nat) (p : Parse) (s : State) (fb : Memory) :
    recordParse base p { s with fb := fb } = { recordParse base p s with fb := fb } := by
  cases p <;> rfl

/-- Settles O34: both sides record the same parse, or raise the same fault. -/
theorem decodeNeverReadsThePayload : Obligations.DecodeNeverReadsThePayload := by
  intro s fb hreads
  rcases Nat.lt_or_ge s.fbLen.toNat s.a0.toNat with hlt | hle
  · exact ⟨_, exec_of_lt rfl hlt, exec_of_lt (s := { s with fb := fb }) rfl hlt⟩
  · refine ⟨_, exec_decodeFrame_of_parse hle rfl, ?_⟩
    rw [← recordParse_fb]
    exact exec_decodeFrame_of_parse (s := { s with fb := fb }) hle (parseFb_of_decodeReads hreads)

end Sys2Proof.Machine
end

section
/-! DECODE over bytes that have been written: its parse is the pure decode of the view (R140), so that the registers
show what the pure decode gives; and CRC_BUF over a decoded frame verifies it (R152). -/

namespace Sys2Proof.Machine

/-! ### The parse of written bytes -/

/-- A part of the bytes written in one run is written where it stands. -/
theorem holds_slice {fb : Memory} {a : Nat} {bs : List Byte} (h : Holds fb a bs) (k n : Nat) :
    Holds fb (a + k) ((bs.drop k).take n) := by
  intro i hi
  have hi' : k + i < bs.length := by
    simp only [List.length_take, List.length_drop] at hi
    omega
  rw [Nat.add_assoc, h (k + i) hi', List.getElem_take, List.getElem_drop]

theorem bytesRead_slice {fb : Memory} {a k n : Nat} {bs : List Byte} (h : Holds fb a bs) (hkn : k + n ≤ bs.length)
    (draws : Nat) : bytesRead fb draws (a + k) n = (bs.drop k).take n ∧ unwritten fb (a + k) n = 0 := by
  have hslice := holds_slice h k n
  have hlen : ((bs.drop k).take n).length = n := by
    rw [List.length_take, List.length_drop]
    omega
  constructor
  · simpa only [hlen] using bytesRead_of_holds fb draws (a + k) hslice
  · simpa only [hlen] using unwritten_of_holds fb (a + k) hslice

theorem readBytes_slice {fb : Memory} {a k n : Nat} {bs : List Byte} (h : Holds fb a bs) (hkn : k + n ≤ bs.length)
    (draws : Nat) : readBytes fb draws (a + k) n = ((bs.drop k).take n, draws) := by
  obtain ⟨hbytes, hnone⟩ := bytesRead_slice h hkn draws
  rw [readBytes_eq, hbytes, hnone, Nat.add_zero]

/-- The result of the pure decode as far as DECODE learns it: without the payload, which it never reads (R145). -/
def DecodeResult.toParse : DecodeResult → Parse
  | .tooShort => .tooShort
  | .badSync => .badSync
  | .incomplete h => .incomplete h
  | .ok h _ crc _ => .ok h crc

/-- The header lies in the seven bytes that DECODE reads for it. -/
theorem Header.ofBytes_take (bs : List Byte) : Header.ofBytes (bs.take 7) = Header.ofBytes bs := by
  simp [Header.ofBytes, List.drop_take, List.take_take]

/-- Where the whole view has been written, DECODE parses it as the pure decode does and draws nothing (R140). -/
theorem parseFb_of_holds {fb : Memory} {base : Nat} {view : List Byte} (h : Holds fb base view) (draws : Nat) :
    parseFb fb draws base view.length = ((decodeView view).toParse, draws) := by
  rcases Nat.lt_or_ge view.length 11 with hshort | hlong
  · rw [parseFb_of_short hshort, decodeView_of_short hshort]
    rfl
  have hsync : readBytes fb draws base 2 = (view.take 2, draws) := readBytes_slice (k := 0) h (by omega) draws
  have hheader : readBytes fb draws (base + 2) 7 = ((view.drop 2).take 7, draws) := readBytes_slice h (by omega) draws
  have hmin : ¬view.length < minFrame := Nat.not_lt.mpr hlong
  simp only [parseFb, decodeView, hsync, hheader, Header.ofBytes_take, if_neg hmin]
  split_ifs with hbad hincomplete
  · rfl
  · rfl
  have hcrc : readBytes fb draws (base + (headerSize + (Header.ofBytes (view.drop 2)).len.toNat)) checksumSize =
      ((view.drop (headerSize + (Header.ofBytes (view.drop 2)).len.toNat)).take checksumSize, draws) :=
    readBytes_slice h (Nat.le_of_not_lt hincomplete) draws
  rw [Nat.add_assoc, hcrc]
  rfl

/-- Where the whole view has been written, DECODE records the pure decode of it and changes nothing else (R141). -/
theorem exec_decodeFrame_of_holds {s : State} {view : List Byte} (hbase : s.a0.toNat ≤ s.fbLen.toNat)
    (hlen : view.length = s.fbLen.toNat - s.a0.toNat) (h : Holds s.fb s.a0.toNat view) :
    exec .decodeFrame s = .next (recordParse s.a0.toNat (decodeView view).toParse s) :=
  exec_decodeFrame_of_parse hbase (hlen ▸ parseFb_of_holds h s.draws)

/-- F_CONS holds the length of every frame: len has 16 bits. -/
theorem toNat_frameLen (h : Header) : (BitVec.ofNat 32 h.frameLen).toNat = 11 + h.len.toNat := by
  have := h.len.isLt
  rw [Header.frameLen_eq]
  exact Nat.mod_eq_of_lt (by omega)

/-- F_POFF holds the offset of the payload of every frame whose header lies below FB_LEN. -/
theorem toNat_payloadOffset {s : State} {base : Nat} (h : base + 9 ≤ s.fbLen.toNat) :
    (BitVec.ofNat 32 (base + headerSize)).toNat = base + 9 :=
  Nat.mod_eq_of_lt (lt_of_le_of_lt h s.fbLen.isLt)

/-- Settles O33, result by result: what is recorded of the parse is what the pure decode gives. -/
theorem decodeRefinesPureDecode : Obligations.DecodeRefinesPureDecode := by
  intro s view hbase hlen hholds
  refine ⟨_, exec_decodeFrame_of_holds hbase hlen hholds, by simp, by simp, ?_⟩
  have hpoff (hlong : 11 ≤ view.length) : (BitVec.ofNat 32 (s.a0.toNat + headerSize)).toNat = s.a0.toNat + 9 :=
    toNat_payloadOffset (s := s) (by omega)
  cases hview : decodeView view with
  | tooShort => exact ⟨isPassthrough_zero.symm, rfl, rfl, rfl, rfl, rfl, rfl, rfl, rfl, rfl, rfl, rfl⟩
  | badSync => exact ⟨isPassthrough_zero.symm, rfl, rfl, rfl, rfl, rfl, rfl, rfl, rfl, rfl, rfl, rfl⟩
  | incomplete h =>
    have hlong : 11 ≤ view.length := by
      by_contra hshort
      simp [decodeView_of_short (Nat.lt_of_not_le hshort)] at hview
    exact ⟨rfl, rfl, rfl, rfl, rfl, rfl, rfl, rfl, rfl, hpoff hlong, toNat_frameLen h, rfl⟩
  | ok h payload crc consumed =>
    obtain ⟨rfl, hfit, rfl⟩ := eq_of_decodeView_ok hview
    rw [Header.frameLen_eq] at hfit
    have hpayload : ((view.drop headerSize).take h.len.toNat).length = h.len.toNat := by
      simp only [List.length_take, List.length_drop, headerSize]
      omega
    refine ⟨rfl, rfl, rfl, rfl, rfl, rfl, rfl, rfl, rfl, hpoff (by omega), ?_, rfl, hpayload, ?_⟩
    · exact (toNat_frameLen h).trans h.frameLen_eq.symm
    · show Holds s.fb (BitVec.ofNat 32 (s.a0.toNat + headerSize)).toNat _
      rw [hpoff (by omega)]
      exact holds_slice hholds headerSize h.len.toNat

/-! ### The host's check of a decoded frame -/

/-- Written bytes that agree with as many others are those. -/
theorem eq_of_holds_of_agrees {fb : Memory} {a : Nat} {bs cs : List Byte} (hbs : Holds fb a bs)
    (hcs : Agrees fb a cs) (hlen : bs.length = cs.length) : bs = cs :=
  List.ext_getElem hlen fun i hi hi' => hcs i hi' bs[i] (hbs i hi)

theorem toBytes16_injective : Function.Injective toBytes16 :=
  Function.LeftInverse.injective fromBytes16_toBytes16

/-- CRC_BUF over bytes that have been written computes their checksum and draws nothing (R105). -/
theorem exec_crcBuf_of_holds {s : State} {a : Nat} {bs : List Byte} (h : Holds s.fb a bs) {k n : Nat}
    (hkn : k + n ≤ bs.length) (ha0 : s.a0.toNat = a + k) (ha1 : s.a1.toNat = n)
    (hrange : a + k + n ≤ s.fbLen.toNat) :
    exec .crcBuf s = .next { s with crc := crc16 ((bs.drop k).take n) } := by
  obtain ⟨hbytes, hnone⟩ := bytesRead_slice h hkn s.draws
  rw [crcBufComputesCrc s (by rwa [ha0, ha1]), ha0, ha1, hbytes, hnone, Nat.add_zero]

section
variable {s : State} {frame : List Byte} (hvalid : s.valid = true) (hsound : ViewSound s)
  (hlen : frame.length = 11 + s.fLen.toNat) (hholds : Holds s.fb (s.fPoff.toNat - 9) frame)
include hvalid hsound hlen hholds

/-- While VALID is 1 and the frame's bytes have been written, the frame's last two bytes are those of F_CRC (R26). -/
theorem crcBytes_of_viewSound : frame.drop (9 + s.fLen.toNat) = toBytes16 s.fCrc := by
  obtain ⟨hview, -, hcrc⟩ := hsound hvalid
  have hpoff : 9 ≤ s.fPoff.toNat := hview.after_header
  have htail : Holds s.fb (s.fPoff.toNat + s.fLen.toNat) (frame.drop (9 + s.fLen.toNat)) := by
    have hslice := holds_slice hholds (9 + s.fLen.toNat) 2
    rwa [List.take_of_length_le (by rw [List.length_drop]; omega),
      show s.fPoff.toNat - 9 + (9 + s.fLen.toNat) = s.fPoff.toNat + s.fLen.toNat by omega] at hslice
  exact eq_of_holds_of_agrees htail hcrc (by rw [List.length_drop, hlen, toBytes16]; simp; omega)

/-- The host's CRC_BUF F_POFF - 7, 7 + F_LEN covers version to payload of the decoded frame (R152, R109). -/
theorem exec_crcBuf_of_viewSound :
    exec .crcBuf { s with a0 := s.fPoff - 7#32, a1 := 7#32 + s.fLen.setWidth 32 } = .next { s with
      a0 := s.fPoff - 7#32, a1 := 7#32 + s.fLen.setWidth 32
      crc := crc16 ((frame.drop 2).take (7 + s.fLen.toNat)) } := by
  obtain ⟨hview, -, -⟩ := hsound hvalid
  have hpoff : 9 ≤ s.fPoff.toNat := hview.after_header
  have hinside : s.fPoff.toNat + s.fLen.toNat + 2 ≤ s.fbLen.toNat := hview.inside
  have hlenBits := s.fLen.isLt
  have ha0 : (s.fPoff - 7#32).toNat = s.fPoff.toNat - 9 + 2 := by bv_omega
  have ha1 : (7#32 + s.fLen.setWidth 32).toNat = 7 + s.fLen.toNat := by bv_omega
  exact exec_crcBuf_of_holds (s := { s with a0 := s.fPoff - 7#32, a1 := 7#32 + s.fLen.setWidth 32 })
    hholds (by omega) ha0 ha1 (by show _ ≤ s.fbLen.toNat; omega)

end

/-- More bytes after a whole frame do not change its parse. -/
theorem parseFb_ok_of_le {fb : Memory} {draws base L L' d : Nat} {h : Header} {crc : Half}
    (hp : parseFb fb draws base L = (.ok h crc, d)) (hle : L ≤ L') : parseFb fb draws base L' = (.ok h crc, d) := by
  rw [parseFb_eq] at hp ⊢
  split_ifs at hp with hshort hsync hincomplete
  · cases hp
  · cases hp
  · rw [if_neg (by omega), if_neg (not_not_intro hsync), if_neg (by omega), hp]
  · cases hp

/-- DECODE at a frame built to the wire layout shows the frame's fields, whatever stands after it (R142, R154). -/
theorem exec_decodeFrame_of_wireFrame {s : State} {typ seq : Byte} {cmd : Half} {payload : List Byte}
    (hpayload : payload.length ≤ 65535) (hfit : s.a0.toNat + 11 + payload.length ≤ s.fbLen.toNat)
    (hholds : Holds s.fb s.a0.toNat (wireFrame typ seq cmd payload)) :
    ∃ t, exec .decodeFrame s = .next t ∧ t.fb = s.fb ∧ t.result = .ok ∧ t.valid = true ∧ t.fault = s.fault ∧
      t.fVer = protocolVersion ∧ t.fType = typ ∧ t.fSeq = seq ∧ t.fCmd = cmd ∧ t.fLen.toNat = payload.length ∧
      t.fPoff.toNat = s.a0.toNat + 9 ∧ t.fCrc = crc16 (checkedPart typ seq cmd payload) := by
  have hdecode := decodeView_wireFrame typ seq cmd payload [] hpayload
  rw [List.append_nil] at hdecode
  have hparse := parseFb_of_holds hholds s.draws
  rw [hdecode] at hparse
  generalize crc16 (checkedPart typ seq cmd payload) = crc at hparse ⊢
  have hlen : (BitVec.ofNat 16 payload.length).toNat = payload.length := Nat.mod_eq_of_lt (by omega)
  exact ⟨_, exec_decodeFrame_of_parse (by omega) (parseFb_ok_of_le hparse (by rw [wireFrame_length]; omega)),
    rfl, rfl, rfl, rfl, rfl, rfl, rfl, rfl, hlen, toNat_payloadOffset (s := s) (by omega), rfl⟩

/-- A DECODE that raises no fault leaves a sound view (R26). -/
theorem viewSound_of_exec_decodeFrame {s t : State} (hbase : s.a0.toNat ≤ s.fbLen.toNat)
    (h : exec .decodeFrame s = .next t) : ViewSound t := by
  rw [exec_decodeFrame, operandOffset_eq, guardRange_of_le hbase] at h
  exact Host.Outcome.next.inj h ▸ decodeAt_viewSound hbase

/-- Settles O36: CRC_BUF computes the checksum of the frame's contents, and F_CRC holds the frame's last two bytes;
a built frame ends in that very checksum. -/
theorem hostVerifiesBuiltFrame : Obligations.HostVerifiesBuiltFrame := by
  constructor
  · intro s frame hvalid hsound hlen hholds
    refine ⟨_, exec_crcBuf_of_viewSound hvalid hsound hlen hholds, rfl, hvalid, rfl, ?_⟩
    rw [crcBytes_of_viewSound hvalid hsound hlen hholds, toBytes16_injective.eq_iff]
    exact eq_comm
  · intro s typ seq cmd payload hpayload hfit hholds
    obtain ⟨t, hdecode, hfb, hresult, hvalid, hfault, hver, htyp, hseq, hcmd, hlen, hpoff, hcrc⟩ :=
      exec_decodeFrame_of_wireFrame hpayload hfit hholds
    have hsound : ViewSound t := viewSound_of_exec_decodeFrame (by omega) hdecode
    have hframe : (wireFrame typ seq cmd payload).length = 11 + t.fLen.toNat := by rw [wireFrame_length, hlen]
    have hshown : Holds t.fb (t.fPoff.toNat - 9) (wireFrame typ seq cmd payload) := by
      rwa [hfb, hpoff, Nat.add_sub_cancel]
    have hverify := exec_crcBuf_of_viewSound hvalid hsound hframe hshown
    rw [hlen, wireFrame_checked, ← hcrc] at hverify
    exact ⟨t, _, hdecode, hresult, hvalid, hfault, hver, htyp, hseq, hcmd, hlen, hverify, hfault, hcrc, rfl⟩

end Sys2Proof.Machine
end

section
/-! Faults (R170 to R177). An access that the table of R171 names sets FAULT with its cause and stores the value it
writes to CMD, no more; every other access but reset leaves FAULT and FCAUSE alone; and no access stops the machine. -/

namespace Sys2Proof.Machine

section
variable {s t : State} {a : Access} {c : FaultCause}

/-! ### An access that raises a fault -/

/-- CMD after an access that raises a fault: the value written, if the access was a CMD write (R24, R170). -/
def cmdAfter (s : State) : Access → Word
  | .regWr r v => if r = 0x00#6 then v else s.cmd
  | .regRd _ => s.cmd
  | .bufWr _ _ => s.cmd
  | .bufRd _ => s.cmd
  | .reset => s.cmd

@[simp] theorem cmdAfter_cmdWrite (s : State) (v : Word) : cmdAfter s (.regWr 0x00#6 v) = v := rfl

/-- The range of a command does not depend on CMD. -/
theorem rangeOf_cmd (s : State) (v : Word) (i : Instr) : rangeOf { s with cmd := v } i = rangeOf s i := by
  cases i <;> rfl

/-- An access that the table of causes names raises that cause and stores the CMD it writes; it does nothing else. -/
theorem performAccess_of_raises (h : Raises s a c) :
    performAccess a s = .next (raiseFault c { s with cmd := cmdAfter s a }) := by
  cases h with
  | illegal v hillegal => exact issueCommand_illegal hillegal s
  | range i n hn hlt =>
    calc performAccess (issue i) s
      _ = exec i { s with cmd := encode i } := issueCommand_encode i s
      _ = .next (raiseFault .range { s with cmd := encode i }) :=
        exec_of_lt ((rangeOf_cmd s (encode i) i).trans hn) hlt
  | length v hlt => exact congrArg Host.Outcome.next (writeFbLen_of_lt hlt)

/-! ### FAULT and FCAUSE after any access -/

/-- An access that raises no fault and is no reset leaves FAULT and FCAUSE as they are (R28, R171). -/
theorem performAccess_keeps_fault (h : performAccess a s = .next t) (hno : ¬∃ c, Raises s a c) (hreset : a ≠ .reset) :
    t.fault = s.fault ∧ t.fcause = s.fcause := by
  rcases performAccess_cases h with ⟨c, hraises, -⟩ | ⟨-, heffect⟩
  · exact absurd ⟨c, hraises⟩ hno
  · rcases heffect with
      ⟨i, -, -, rfl⟩ | ⟨i, crc, d, -, -, rfl⟩ | ⟨i, w, d, -, -, rfl⟩ | ⟨i, bs, -, -, -, -, rfl⟩ |
      ⟨-, -, rfl⟩ | ⟨v, -, rfl⟩ | ⟨v, -, rfl⟩ | ⟨v, -, rfl⟩ | ⟨v, -, -, rfl⟩ | ⟨r, v, -, -, rfl⟩ |
      ⟨r, -, rfl⟩ | ⟨p, b, -, -, rfl⟩ | ⟨p, b, -, -, rfl⟩ | ⟨p, b, d, -, rfl⟩ | ⟨ha, -⟩
    iterate 4 exact ⟨rfl, rfl⟩
    · simp
    iterate 9 exact ⟨rfl, rfl⟩
    · exact absurd ha hreset

/-- While FAULT is 1 no access but reset changes FAULT or FCAUSE: a further fault sets nothing new (R176). -/
theorem performAccess_fault_sticky (h : performAccess a s = .next t) (hfault : s.fault = true) (hreset : a ≠ .reset) :
    t.fault = true ∧ t.fcause = s.fcause := by
  by_cases hraises : ∃ c, Raises s a c
  · obtain ⟨c, hc⟩ := hraises
    obtain rfl := Host.Outcome.next.inj ((performAccess_of_raises hc).symm.trans h)
    simp [hfault]
  · obtain ⟨hkept, hcause⟩ := performAccess_keeps_fault h hraises hreset
    exact ⟨hkept.trans hfault, hcause⟩

/-! ### Every access completes -/

/-- A write to CMD issues a command, which completes, or raises Fault(ILLEGAL_OP). -/
theorem issueCommand_completes (v : Word) (s : State) : ∃ t, issueCommand v s = .next t := by
  rcases cmdWrite_cases v with ⟨i, rfl⟩ | hillegal
  · rw [issueCommand_encode]
    exact exec_completes i _
  · exact ⟨_, issueCommand_illegal hillegal s⟩

theorem performAccess_completes (a : Access) (s : State) : ∃ t, performAccess a s = .next t := by
  cases a with
  | regWr r v =>
    rcases regWrite_cases r v s with ⟨-, hcmd⟩ | ⟨-, ha0⟩ | ⟨-, ha1⟩ | ⟨-, hcw⟩ | ⟨-, hlen⟩ | ⟨-, hignored⟩
    · obtain ⟨t, ht⟩ := issueCommand_completes v s
      exact ⟨t, hcmd.trans ht⟩
    · exact ⟨_, ha0⟩
    · exact ⟨_, ha1⟩
    · exact ⟨_, hcw⟩
    · exact ⟨_, hlen⟩
    · exact ⟨_, hignored⟩
  | regRd r => exact ⟨_, rfl⟩
  | bufWr p b => exact ⟨_, rfl⟩
  | bufRd p => exact ⟨_, rfl⟩
  | reset => exact ⟨_, rfl⟩

theorem step_completes (s : State) : ∃ t, step s = .next t := by
  cases hpending : s.pending with
  | nil => exact ⟨s, step_nil hpending⟩
  | cons a rest =>
    rw [step_cons hpending]
    exact performAccess_completes a _

end

/-! ### The obligations -/

/-- Settles O53: the step performs the access, which raises the fault the table names. -/
theorem faultsArePrecise : Obligations.FaultsArePrecise := by
  intro s a rest c hnext hraises
  rw [step_cons hnext, performAccess_of_raises (raises_pending.mpr hraises)]
  rfl

/-- Settles O51: an idle step changes nothing, and an access by `performAccess_fault_sticky`. -/
theorem faultIsStickyUntilReset : Obligations.FaultIsStickyUntilReset := by
  intro s t hfault hreset hstep
  cases hpending : s.pending with
  | nil =>
    obtain rfl := Host.Outcome.next.inj ((step_nil hpending).symm.trans hstep)
    exact ⟨hfault, rfl⟩
  | cons a rest =>
    have hne : a ≠ .reset := by
      rintro rfl
      exact hreset rest hpending
    exact performAccess_fault_sticky (s := { s with pending := rest }) (step_cases hpending hstep) hfault hne

/-- Settles O52: an access of the table raises its cause, and no other access sets FAULT. -/
theorem faultsAreExactlyTheTable : Obligations.FaultsAreExactlyTheTable := by
  intro s t a rest hnext hreset hfault hstep
  have hperf : performAccess a { s with pending := rest } = .next t := step_cases hnext hstep
  have hraised (c : FaultCause) (hc : Raises s a c) :
      t = raiseFault c { s with pending := rest, cmd := cmdAfter s a } :=
    Host.Outcome.next.inj (hperf.symm.trans (performAccess_of_raises (raises_pending.mpr hc)))
  refine ⟨⟨fun ht => ?_, fun ⟨c, hc⟩ => ?_⟩, fun c hc => ?_⟩
  · by_contra hno
    have hkept : t.fault = s.fault := (performAccess_keeps_fault hperf (by simpa [raises_pending] using hno) hreset).1
    simp [ht, hfault] at hkept
  · simp [hraised c hc]
  · have hcause : t.fcause = some c := by simp [hraised c hc, hfault]
    have hcode : (regValue t 0x01#6).extractLsb' 12 4 = c.code := by
      calc (regValue t 0x01#6).extractLsb' 12 4
        _ = fcauseCode t.fcause := extractLsb'_statusWord_cause t
        _ = c.code := by rw [hcause, fcauseCode]
    obtain rfl := hraised c hc
    refine ⟨hcause, hcode.trans (by cases c <;> rfl), rfl, rfl, rfl, ?_⟩
    rintro v rfl
    exact cmdAfter_cmdWrite s v

/-- Settles O49, command by command and access by access. -/
theorem everyStepCompletes : Obligations.EveryStepCompletes :=
  ⟨exec_completes, step_completes⟩

end Sys2Proof.Machine
end

section
/-! Reset and hazards (R190, R191, R197): after a reset access the register port reads as at power-on, and a frame that
does not fit below FB_CAP is never complete. -/

namespace Sys2Proof.Machine

/-! ### The register port after a reset access -/

theorem readReg_hostReset (s : State) (n : RegName) :
    readReg (hostReset s) n = readReg (State.resetWith s.config) n := by
  cases n <;> rfl

/-- What a reset access keeps besides FB_CAP is the model's own, so every index reads as at power-on (R190, R191). -/
theorem regValue_hostReset (s : State) (r : RegIndex) :
    regValue (hostReset s) r = regValue (State.resetWith s.config) r := by
  simp only [regValue, readReg_hostReset]

/-- Settles O44: the step is the reset access, after which every index reads as at power-on. -/
theorem resetAccessSetsResetValues : Obligations.ResetAccessSetsResetValues := by
  intro s rest hnext
  refine ⟨hostReset { s with pending := rest }, step_cons hnext, rfl, rfl, rfl, rfl, rfl, fun r hcrc hcap => ?_,
    fun _ => rfl⟩
  rw [regValue_hostReset]
  exact regValue_resetWith s.config hcrc hcap

/-! ### A frame longer than the buffer -/

/-- Where the header has been written, DECODE extracts its fields, whatever stands after it (R76, R140 step 3). -/
theorem headerAt_of_holds {fb : Memory} {base : Nat} {sync sync' ver typ seq c1 c0 l1 l0 : Byte} (draws : Nat)
    (h : Holds fb base [sync, sync', ver, typ, seq, c1, c0, l1, l0]) :
    headerAt fb draws base = ⟨ver, typ, seq, c1 ++ c0, l1 ++ l0⟩ := by
  have hbyte (i : Nat) (hi : i < 9) :
      byteRead fb draws base i = [sync, sync', ver, typ, seq, c1, c0, l1, l0][i] :=
    byteRead_of_read fb draws base (h i hi)
  simp [headerAt, hbyte]

/-- Settles O35: FB_LEN is at most FB_CAP, so the view is shorter than the frame and the parse stops after the
header. -/
theorem oversizedFrameStaysIncomplete : Obligations.OversizedFrameStaysIncomplete := by
  intro s ver typ seq c1 c0 l1 l0 hoversized hholds hcap hlong
  have hsync1 : byteRead s.fb s.draws s.a0.toNat 0 = 0xAA#8 := byteRead_of_read _ _ _ (hholds 0 (by simp))
  have hsync2 : byteRead s.fb s.draws s.a0.toNat 1 = 0x55#8 := byteRead_of_read _ _ _ (hholds 1 (by simp))
  have hheader := headerAt_of_holds s.draws hholds
  have hshort : s.fbLen.toNat - s.a0.toNat < 11 + (headerAt s.fb s.draws s.a0.toNat).len.toNat := by
    rw [hheader]
    show s.fbLen.toNat - s.a0.toNat < 11 + (l1 ++ l0).toNat
    omega
  have hparse := parseFb_of_incomplete hsync1 hsync2 (by omega) hshort
  rw [hheader] at hparse
  exact ⟨_, exec_decodeFrame_of_parse (by omega) hparse, rfl, rfl, toNat_frameLen _⟩

end Sys2Proof.Machine
end
